-- ==== Sys2Proof/Word.lean ====
section
/-! DEFINITION. The word types of the machine: u64 values, bytes and nibbles (spec/00_scope.md R6). -/

namespace Sys2Proof

/-- A u64: every register, pipeline field, address and constant (R5 `XLEN`, R6). -/
abbrev Word := BitVec 64

/-- A byte of memory (R27). -/
abbrev Byte := BitVec 8

/-- Half a byte: an icode, an ifun or a register id as it stands in an encoding (R6). -/
abbrev Nibble := BitVec 4

end Sys2Proof
end

