-- ==== Sys2Proof/Config.lean ====
section
/-! DEFINITION. The parameters the model takes (spec/00_scope.md R5) and the one value the spec leaves open. -/

namespace Sys2Proof

/-- `RET_DRAIN_D`: the control of register D while a RETURN is in D, E or M (R5, R194, conflict C3). -/
inductive RetDrain where
  | normal
  | bubble
deriving DecidableEq, Repr

/-- `FWD_M_ORDER`: which destination of register M forwarding matches first (R5, R125, conflict C4). -/
inductive FwdMOrder where
  | dstEFirst
  | dstMFirst
deriving DecidableEq, Repr

/-- `OF_LOGIC`: what OF becomes after a logical operation (R5, R154, conflict C5). -/
inductive OfLogic where
  | unchanged
  | cleared
deriving DecidableEq, Repr

/-- The numbers of the opcode classes (R66), of the ALU functions but `add`, which the source fixes at 0 (R67), and of
the relations (R68): parameters of R5, "configuration constants" (93_implementation_defined.md G1, G9, U14). -/
structure Numbers where
  halt   : Nibble
  nop    : Nibble
  rrmovq : Nibble
  irmovq : Nibble
  rmmovq : Nibble
  mrmovq : Nibble
  opq    : Nibble
  jxx    : Nibble
  call   : Nibble
  ret    : Nibble
  pushq  : Nibble
  popq   : Nibble
  sub    : Nibble
  and    : Nibble
  xor    : Nibble
  always : Nibble
  le     : Nibble
  l      : Nibble
  e      : Nibble
  ne     : Nibble
  ge     : Nibble
  g      : Nibble
deriving DecidableEq, Repr

/-- The parameters of R5 that the rules of files 20, 30 and 40 to 46 read. -/
structure Config where
  /-- `MEMSIZE`: the number of bytes of memory (R40). -/
  memSize   : Nat
  /-- `LONG_ALIGN`: the alignment an 8-byte data access needs (R45). -/
  longAlign : Nat
  /-- `RSP`: which of the 15 registers is the stack pointer (R13; "a parameter with `0 <= RSP <= 14`", G2). -/
  rspId     : Fin 15
  /-- The icode and ifun numbers (R66 to R68). -/
  numbers   : Numbers
  retDrainD : RetDrain
  fwdMOrder : FwdMOrder
  ofLogic   : OfLogic
deriving DecidableEq, Repr

namespace Config

/-- The customary numbers. PRESUMED, unsafe: the spec's general knowledge (G1, G9; log 7). -/
def customaryNumbers : Numbers where
  halt   := 0x0
  nop    := 0x1
  rrmovq := 0x2
  irmovq := 0x3
  rmmovq := 0x4
  mrmovq := 0x5
  opq    := 0x6
  jxx    := 0x7
  call   := 0x8
  ret    := 0x9
  pushq  := 0xA
  popq   := 0xB
  sub    := 1
  and    := 2
  xor    := 3
  always := 0
  le     := 1
  l      := 2
  e      := 3
  ne     := 4
  ge     := 5
  g      := 6

/-- The values R5 takes.
PRESUMED, unsafe: `memSize`, `rspId` and `numbers` (general knowledge in the spec; log 5, 7).
DESIGN CHOICE of the spec, unsafe: the other four (decisions D2 to D5; log 2, 3, 4, 6). -/
def machine : Config where
  memSize   := 0x1000
  longAlign := 1
  rspId     := 4
  numbers   := customaryNumbers
  retDrainD := .normal
  fwdMOrder := .dstEFirst
  ofLogic   := .unchanged

/-- `RSP` as an id in a nibble (R13). It is never the sentinel. -/
def rsp (c : Config) : Nibble := BitVec.ofNat 4 c.rspId

/-- FREE VALUE: what `read(RNONE)` of the register file returns. R11 leaves it unspecified ("any value",
93_implementation_defined.md U1) and no rule evaluates it (R125, R128). DESIGN CHOICE, safe (log 21). -/
opaque readNone : Word

/-- What a byte of memory that nothing has written reads as. DESIGN CHOICE, unsafe (R28 default; log 11). -/
def unlistedByte : Byte := 0

end Config

end Sys2Proof
end

