-- ==== Sys2Proof/Syntax.lean ====
section
/-! DEFINITION. Register ids, opcode classes, ALU functions, conditions and the 27 instructions
(spec/10_state.md R11, R12; spec/30_encoding.md R66 to R69). -/

namespace Sys2Proof

/-- A register id as it travels in a nibble: 0 to 14 name a register, 0xF is "no register" (R11, R62). -/
abbrev RegId := Nibble

/-- The sentinel `RNONE` (R5: derived from R62). -/
abbrev rnone : RegId := 0xF#4

/-- The customary register names, for printing only. PRESUMED, safe: no rule reads a name (R12; log 7). -/
def RegId.name (r : RegId) : String :=
  (["%rax", "%rcx", "%rdx", "%rbx", "%rsp", "%rbp", "%rsi", "%rdi", "%r8", "%r9", "%r10", "%r11", "%r12",
    "%r13", "%r14"][r.toNat]?).getD "RNONE"

/-- The opcode class in an `icode` field: the twelve legal classes, and a high nibble that numbers none of them,
which flows down the pipeline "with its own icode" (R66, R70). -/
inductive Icode where
  | halt | nop | rrmovq | irmovq | rmmovq | mrmovq | opq | jxx | call | ret | pushq | popq
  | illegal (n : Nibble)
deriving DecidableEq, Repr

/-- The four ALU functions (R67). -/
inductive AluFn where
  | add | sub | and | xor
deriving DecidableEq, Repr

/-- The seven relations of a jump or conditional move (R68). -/
inductive Cond where
  | always | le | l | e | ne | ge | g
deriving DecidableEq, Repr

/-- The instructions, one constructor per row of spec/opcode_table.json (R69).
`fn` is the ifun nibble of a class for which the hardware ignores it, and a register nibble that the class
ignores is an operand too, because register D latches both (R19, R71): the canonical values are
`fn = 0` and `rnone` (see `Instr.wellFormed`). -/
inductive Instr where
  | halt (fn : Nibble)
  | nop (fn : Nibble)
  | rrmovq (rA rB : RegId)
  | cmovle (rA rB : RegId)
  | cmovl (rA rB : RegId)
  | cmove (rA rB : RegId)
  | cmovne (rA rB : RegId)
  | cmovge (rA rB : RegId)
  | cmovg (rA rB : RegId)
  /-- `irmovq $v, rB`; `rA` is the ignored nibble. -/
  | irmovq (fn : Nibble) (rA rB : RegId) (v : Word)
  /-- `rmmovq rA, d(rB)` -/
  | rmmovq (fn : Nibble) (rA rB : RegId) (d : Word)
  /-- `mrmovq d(rB), rA` -/
  | mrmovq (fn : Nibble) (rA rB : RegId) (d : Word)
  | addq (rA rB : RegId)
  | subq (rA rB : RegId)
  | andq (rA rB : RegId)
  | xorq (rA rB : RegId)
  | jmp (dest : Word)
  | jle (dest : Word)
  | jl (dest : Word)
  | je (dest : Word)
  | jne (dest : Word)
  | jge (dest : Word)
  | jg (dest : Word)
  | call (fn : Nibble) (dest : Word)
  | ret (fn : Nibble)
  /-- `pushq rA`; `rB` is the ignored nibble. -/
  | pushq (fn : Nibble) (rA rB : RegId)
  /-- `popq rA`; `rB` is the ignored nibble. -/
  | popq (fn : Nibble) (rA rB : RegId)
deriving DecidableEq, Repr

end Sys2Proof
end

