-- ==== Sys2Proof/Decode.lean ====
section
/-! DEFINITION. From bytes to instructions and back (spec/30_encoding.md). The numbers of classes, functions and
relations are parameters (R5, R66 to R69). -/

namespace Sys2Proof

/-! ## Nibbles, bytes and the byte order of a constant -/

/-- `b[7:4]` (R6). -/
def hiNibble (b : Byte) : Nibble := b.extractLsb' 4 4

/-- `b[3:0]` (R6). -/
def loNibble (b : Byte) : Nibble := b.extractLsb' 0 4

/-- The byte with these two nibbles (R6). -/
def byteOf (hi lo : Nibble) : Byte := hi ++ lo

/-- Byte `i` of a u64, `v[8i+7:8i]` (R41). -/
def byteAt (v : Word) (i : Nat) : Byte := v.extractLsb' (8 * i) 8

/-- The u64 whose byte `i` is `b i`: `b 7 ++ b 6 ++ ... ++ b 0`, least significant byte first (R41, R43, R63). -/
def longOf (b : Nat → Byte) : Word := b 7 ++ (b 6 ++ (b 5 ++ (b 4 ++ (b 3 ++ (b 2 ++ (b 1 ++ b 0))))))

/-- The eight bytes of a u64, least significant first (R41, R63). -/
def longBytes (v : Word) : List Byte :=
  [byteAt v 0, byteAt v 1, byteAt v 2, byteAt v 3, byteAt v 4, byteAt v 5, byteAt v 6, byteAt v 7]

/-! ## The tables -/

/-- The twelve classes, "the fixed legal opcodes" (R66, R103). -/
def legalClasses : List Icode :=
  [.halt, .nop, .rrmovq, .irmovq, .rmmovq, .mrmovq, .opq, .jxx, .call, .ret, .pushq, .popq]

/-- The high nibble of an opcode class (R66, R70). -/
def Icode.nibble (c : Config) : Icode → Nibble
  | .halt => c.numbers.halt
  | .nop => c.numbers.nop
  | .rrmovq => c.numbers.rrmovq
  | .irmovq => c.numbers.irmovq
  | .rmmovq => c.numbers.rmmovq
  | .mrmovq => c.numbers.mrmovq
  | .opq => c.numbers.opq
  | .jxx => c.numbers.jxx
  | .call => c.numbers.call
  | .ret => c.numbers.ret
  | .pushq => c.numbers.pushq
  | .popq => c.numbers.popq
  | .illegal n => n

/-- The opcode class of a high nibble: a nibble that numbers none of the twelve is illegal (R66, R70). -/
def Icode.ofNibble (c : Config) (n : Nibble) : Icode :=
  (legalClasses.find? fun ic => ic.nibble c == n).getD (.illegal n)

/-- Is the class one of "the fixed legal opcodes" (R66, R103)? -/
def Icode.legal : Icode → Bool
  | .illegal _ => false
  | .halt | .nop | .rrmovq | .irmovq | .rmmovq | .mrmovq | .opq | .jxx | .call | .ret | .pushq | .popq => true

/-- `need_regids` (R64). -/
def Icode.needRegids : Icode → Bool
  | .rrmovq | .irmovq | .rmmovq | .mrmovq | .opq | .pushq | .popq => true
  | .halt | .nop | .jxx | .call | .ret | .illegal _ => false

/-- `need_valC` (R65). -/
def Icode.needValC : Icode → Bool
  | .irmovq | .rmmovq | .mrmovq | .jxx | .call => true
  | .halt | .nop | .rrmovq | .opq | .ret | .pushq | .popq | .illegal _ => false

/-- `length = 1 + need_regids + 8 * need_valC` (R60, R72). -/
def Icode.length (ic : Icode) : Nat := 1 + ic.needRegids.toNat + 8 * ic.needValC.toNat

/-- The four ALU functions (R67). -/
def AluFn.all : List AluFn := [.add, .sub, .and, .xor]

/-- The ifun of an ALU function; "'add' (opcode 0)" is the source's (R67). -/
def AluFn.ifun (c : Config) : AluFn → Nibble
  | .add => 0
  | .sub => c.numbers.sub
  | .and => c.numbers.and
  | .xor => c.numbers.xor

/-- The ALU function of an OPQ's ifun; a number of none of the four names none (R67, R71). -/
def AluFn.ofIfun (c : Config) (fn : Nibble) : Option AluFn := AluFn.all.find? fun f => f.ifun c == fn

/-- The seven relations (R68). -/
def Cond.all : List Cond := [.always, .le, .l, .e, .ne, .ge, .g]

/-- The ifun of a relation (R68). -/
def Cond.ifun (c : Config) : Cond → Nibble
  | .always => c.numbers.always
  | .le => c.numbers.le
  | .l => c.numbers.l
  | .e => c.numbers.e
  | .ne => c.numbers.ne
  | .ge => c.numbers.ge
  | .g => c.numbers.g

/-- The relation of a JUMP's or RRMOVQ's ifun; a number of none of the seven names none (R68, R71). -/
def Cond.ofIfun (c : Config) (fn : Nibble) : Option Cond := Cond.all.find? fun r => r.ifun c == fn

/-- No two opcode classes, no two ALU functions and no two relations have one number, so that an encoding names one
instruction (R66 to R69). -/
def Config.numbersDistinct (c : Config) : Bool :=
  decide (legalClasses.map (·.nibble c)).Nodup && decide (AluFn.all.map (·.ifun c)).Nodup
    && decide (Cond.all.map (·.ifun c)).Nodup

/-! ## The decoder -/

/-- Why bytes are none of the 27 instructions. The machine goes on in every case (R70, R71, R103). -/
inductive Reject where
  /-- There is no first byte: the fetch address is out of bounds (R101). -/
  | noFirstByte
  /-- The high nibble of byte 0 numbers no class (R70). -/
  | illegalOpcode (ic : Icode) (fn : Nibble)
  /-- An OPQ whose ifun names no function (R71). -/
  | undefinedAluFunction (fn : Nibble) (rA rB : RegId)
  /-- An RRMOVQ whose ifun names no relation (R71). -/
  | undefinedMoveCondition (fn : Nibble) (rA rB : RegId)
  /-- A JUMP whose ifun names no relation (R71). -/
  | undefinedJumpCondition (fn : Nibble) (dest : Word)
deriving DecidableEq, Repr

/-- The RRMOVQ class by its relation (R68, R69). -/
def decodeMove (c : Config) (fn : Nibble) (rA rB : RegId) : Except Reject Instr :=
  match Cond.ofIfun c fn with
  | some .always => .ok (.rrmovq rA rB)
  | some .le => .ok (.cmovle rA rB)
  | some .l => .ok (.cmovl rA rB)
  | some .e => .ok (.cmove rA rB)
  | some .ne => .ok (.cmovne rA rB)
  | some .ge => .ok (.cmovge rA rB)
  | some .g => .ok (.cmovg rA rB)
  | none => .error (.undefinedMoveCondition fn rA rB)

/-- The OPQ class by its function (R67, R69). -/
def decodeAlu (c : Config) (fn : Nibble) (rA rB : RegId) : Except Reject Instr :=
  match AluFn.ofIfun c fn with
  | some .add => .ok (.addq rA rB)
  | some .sub => .ok (.subq rA rB)
  | some .and => .ok (.andq rA rB)
  | some .xor => .ok (.xorq rA rB)
  | none => .error (.undefinedAluFunction fn rA rB)

/-- The JUMP class by its relation (R68, R69). -/
def decodeJump (c : Config) (fn : Nibble) (dest : Word) : Except Reject Instr :=
  match Cond.ofIfun c fn with
  | some .always => .ok (.jmp dest)
  | some .le => .ok (.jle dest)
  | some .l => .ok (.jl dest)
  | some .e => .ok (.je dest)
  | some .ne => .ok (.jne dest)
  | some .ge => .ok (.jge dest)
  | some .g => .ok (.jg dest)
  | none => .error (.undefinedJumpCondition fn dest)

/-- The instruction that these fields spell: `bs` are the bytes after byte 0, a missing one reads 0
(R60 to R63, R111). -/
def decodeFields (c : Config) (ic : Icode) (fn : Nibble) (rA rB : RegId) (v : Word) : Except Reject Instr :=
  match ic with
  | .halt => .ok (.halt fn)
  | .nop => .ok (.nop fn)
  | .rrmovq => decodeMove c fn rA rB
  | .irmovq => .ok (.irmovq fn rA rB v)
  | .rmmovq => .ok (.rmmovq fn rA rB v)
  | .mrmovq => .ok (.mrmovq fn rA rB v)
  | .opq => decodeAlu c fn rA rB
  | .jxx => decodeJump c fn v
  | .call => .ok (.call fn v)
  | .ret => .ok (.ret fn)
  | .pushq => .ok (.pushq fn rA rB)
  | .popq => .ok (.popq fn rA rB)
  | .illegal _ => .error (.illegalOpcode ic fn)

/-- Reads one instruction from the front of a list of bytes and gives the bytes after it. Byte 0 decides the
length (R72). A byte that is missing after byte 0 reads 0 (R42, R111; decision D13, log 13). -/
def decode (c : Config) : List Byte → Except Reject (Instr × List Byte)
  | [] => .error .noFirstByte
  | b :: bs =>
    let ic := Icode.ofNibble c (hiNibble b)
    let regs := bs.headD 0
    let constant := if ic.needRegids then bs.tail else bs
    let i := decodeFields c ic (loNibble b) (hiNibble regs) (loNibble regs) (longOf fun k => constant.getD k 0)
    i.map fun i => (i, (b :: bs).drop ic.length)

/-! ## The encoder -/

/-- Format O: one byte (R60). -/
def encodeO (c : Config) (ic : Icode) (fn : Nibble) : List Byte := [byteOf (ic.nibble c) fn]

/-- Format R: two bytes (R60). -/
def encodeR (c : Config) (ic : Icode) (fn : Nibble) (rA rB : RegId) : List Byte :=
  [byteOf (ic.nibble c) fn, byteOf rA rB]

/-- Format I: ten bytes (R60). -/
def encodeI (c : Config) (ic : Icode) (fn : Nibble) (rA rB : RegId) (v : Word) : List Byte :=
  byteOf (ic.nibble c) fn :: byteOf rA rB :: longBytes v

/-- Format J: nine bytes (R60). -/
def encodeJ (c : Config) (ic : Icode) (fn : Nibble) (dest : Word) : List Byte :=
  byteOf (ic.nibble c) fn :: longBytes dest

/-- The bytes of an instruction, in address order (R69). -/
def encode (c : Config) : Instr → List Byte
  | .halt fn => encodeO c .halt fn
  | .nop fn => encodeO c .nop fn
  | .rrmovq rA rB => encodeR c .rrmovq (Cond.always.ifun c) rA rB
  | .cmovle rA rB => encodeR c .rrmovq (Cond.le.ifun c) rA rB
  | .cmovl rA rB => encodeR c .rrmovq (Cond.l.ifun c) rA rB
  | .cmove rA rB => encodeR c .rrmovq (Cond.e.ifun c) rA rB
  | .cmovne rA rB => encodeR c .rrmovq (Cond.ne.ifun c) rA rB
  | .cmovge rA rB => encodeR c .rrmovq (Cond.ge.ifun c) rA rB
  | .cmovg rA rB => encodeR c .rrmovq (Cond.g.ifun c) rA rB
  | .irmovq fn rA rB v => encodeI c .irmovq fn rA rB v
  | .rmmovq fn rA rB d => encodeI c .rmmovq fn rA rB d
  | .mrmovq fn rA rB d => encodeI c .mrmovq fn rA rB d
  | .addq rA rB => encodeR c .opq (AluFn.add.ifun c) rA rB
  | .subq rA rB => encodeR c .opq (AluFn.sub.ifun c) rA rB
  | .andq rA rB => encodeR c .opq (AluFn.and.ifun c) rA rB
  | .xorq rA rB => encodeR c .opq (AluFn.xor.ifun c) rA rB
  | .jmp dest => encodeJ c .jxx (Cond.always.ifun c) dest
  | .jle dest => encodeJ c .jxx (Cond.le.ifun c) dest
  | .jl dest => encodeJ c .jxx (Cond.l.ifun c) dest
  | .je dest => encodeJ c .jxx (Cond.e.ifun c) dest
  | .jne dest => encodeJ c .jxx (Cond.ne.ifun c) dest
  | .jge dest => encodeJ c .jxx (Cond.ge.ifun c) dest
  | .jg dest => encodeJ c .jxx (Cond.g.ifun c) dest
  | .call fn dest => encodeJ c .call fn dest
  | .ret fn => encodeO c .ret fn
  | .pushq fn rA rB => encodeR c .pushq fn rA rB
  | .popq fn rA rB => encodeR c .popq fn rA rB

/-! ## The opcode table's numbering of an instruction's bits -/

/-- The ten bytes at rising addresses of the instruction whose bits are `w`, bit 0 the least significant bit of
the first byte; every bit from `nbits` up is 0. Ten is the longest instruction (R60). -/
def tableBytes (nbits w : Nat) : List Byte :=
  [0, 1, 2, 3, 4, 5, 6, 7, 8, 9].map fun k => BitVec.ofNat 8 ((w % 2 ^ nbits) >>> (8 * k))

/-- The instruction the decoder reads from those bytes, at the machine's numbers. -/
def decodeTableWord (nbits w : Nat) : Option Instr :=
  match decode Config.machine (tableBytes nbits w) with
  | .ok (i, _) => some i
  | .error _ => none

end Sys2Proof
end

