-- ==== Sys2Proof/Machine/State.lean ====
section
/-! DEFINITION. The complete state of the machine, the tuple of spec/10_state.md R10, its reset value (R28), and
the reasons a step can stop. -/

namespace Sys2Proof.Machine

/-- The status code an instruction carries (R23). -/
inductive Stat where
  /-- `SAOK` -/
  | aok
  /-- `SHLT` -/
  | hlt
  /-- `SADR` -/
  | adr
  /-- `SINS` -/
  | ins
deriving DecidableEq, Repr

/-- The number of a status code, for printing only. PRESUMED, safe: the rules use equality only (R5, R260; log 8). -/
def Stat.code : Stat → Nat
  | .aok => 1
  | .hlt => 2
  | .adr => 3
  | .ins => 4

/-- "Abnormal": any of `SADR`, `SINS`, `SHLT` (R23). -/
def Stat.abnormal : Stat → Bool
  | .aok => false
  | .hlt | .adr | .ins => true

/-- The condition-code store (R16). -/
structure Flags where
  zf : Bool
  sf : Bool
  of : Bool
deriving DecidableEq, Repr

/-- The register file: 15 general registers (R11). -/
abbrev Regs := Vector Word 15

/-- `Mem` as the bytes that differ from what an unlisted address reads as, addresses strictly rising (R27). -/
abbrev Memory := List Host.Cell

/-- Register F (R18). -/
structure FReg where
  predPC : Word
deriving DecidableEq, Repr

/-- Register D (R19). -/
structure DReg where
  stat  : Stat
  icode : Icode
  ifun  : Nibble
  rA    : RegId
  rB    : RegId
  valC  : Word
  valP  : Word
deriving DecidableEq, Repr

/-- Register E (R20). `srcA` and `srcB` are read by no rule. -/
structure EReg where
  stat  : Stat
  icode : Icode
  ifun  : Nibble
  valC  : Word
  valA  : Word
  valB  : Word
  dstE  : RegId
  dstM  : RegId
  srcA  : RegId
  srcB  : RegId
deriving DecidableEq, Repr

/-- Register M (R21). -/
structure MReg where
  stat  : Stat
  icode : Icode
  cnd   : Bool
  valE  : Word
  valA  : Word
  dstE  : RegId
  dstM  : RegId
deriving DecidableEq, Repr

/-- Register W (R22). -/
structure WReg where
  stat  : Stat
  icode : Icode
  valE  : Word
  valM  : Word
  dstE  : RegId
  dstM  : RegId
deriving DecidableEq, Repr

/-- The bubble value of D (R85). DESIGN CHOICE of the spec, safe: the zeros (decision D18; log 17). -/
def DReg.bubble : DReg :=
  { stat := .aok, icode := .nop, ifun := 0, rA := rnone, rB := rnone, valC := 0, valP := 0 }

/-- The bubble value of E (R86). DESIGN CHOICE of the spec, safe: the zeros (decision D18; log 17). -/
def EReg.bubble : EReg :=
  { stat := .aok, icode := .nop, ifun := 0, valC := 0, valA := 0, valB := 0,
    dstE := rnone, dstM := rnone, srcA := rnone, srcB := rnone }

/-- The bubble value of M (R87). DESIGN CHOICE of the spec, safe: the zeros (decision D18; log 17). -/
def MReg.bubble : MReg :=
  { stat := .aok, icode := .nop, cnd := false, valE := 0, valA := 0, dstE := rnone, dstM := rnone }

/-- The neutral value W takes at reset (R88). DESIGN CHOICE of the spec, safe: the zeros (decision D18; log 17). -/
def WReg.neutral : WReg :=
  { stat := .aok, icode := .nop, valE := 0, valM := 0, dstE := rnone, dstM := rnone }

/-- The state of the machine between two clock cycles (R10). -/
structure State where
  /-- `x[0..14]` (R11). -/
  regs       : Regs
  /-- `ZF, SF, OF` (R16). -/
  flags      : Flags
  /-- `Mem` (R27). -/
  mem        : Memory
  F          : FReg
  D          : DReg
  E          : EReg
  M          : MReg
  W          : WReg
  /-- Has the stop cycle run (R25)? -/
  stopped    : Bool
  /-- The status the machine stopped with; none before the stop (R25, R28). -/
  exitStatus : Option Stat
deriving DecidableEq, Repr

/-- The state after reset, before a program is loaded (R28, R280). The whole rule is the spec's decision D6.
DESIGN CHOICE of the spec, unsafe: registers, flags and unloaded memory are 0 (log 9, 10, 11). -/
def State.reset : State where
  regs       := Vector.replicate 15 0
  flags      := { zf := false, sf := false, of := false }
  mem        := []
  F          := { predPC := 0 }
  D          := .bubble
  E          := .bubble
  M          := .bubble
  W          := .neutral
  stopped    := false
  exitStatus := none

/-- Why a step has no next state. -/
inductive Fault where
  /-- Raised by a clock cycle asked of a stopped machine: "no cycle runs while it is set" (R25, R92). It is the
  only fault, and no instruction raises it. Safe: nothing is proved of a state that the rules do not give (log 20). -/
  | machineStopped
deriving DecidableEq, Repr

/-- Why an instruction has no meaning. -/
inductive Refusal where
  /-- The instruction has no meaning yet. Raised by no arm of `exec`. Safe. -/
  | notModelled (mnemonic : String)
deriving DecidableEq, Repr

end Sys2Proof.Machine
end

