-- ==== Sys2Proof/Machine/Ops.lean ====
section
/-! DEFINITION. The named operations over memory, the register file, the pipeline registers and the stop
(spec/20_memory.md R40 to R46, spec/10_state.md R11, spec/40_pipeline_registers_and_clock.md R83, R92). -/

namespace Sys2Proof.Machine

/-! ## Memory -/

namespace Memory

/-- The byte at an address; an unlisted one reads `Config.unlistedByte` (R40, R28). -/
def get : Memory → Nat → Byte
  | [], _ => Config.unlistedByte
  | c :: m, a => if c.1 = a then c.2 else get m a

/-- Puts a byte at an address and keeps the canonical form: a byte equal to the unlisted one is not listed. -/
def set : Memory → Nat → Byte → Memory
  | [], a, v => if v = Config.unlistedByte then [] else [(a, v)]
  | c :: m, a, v =>
    if a < c.1 then (if v = Config.unlistedByte then c :: m else (a, v) :: c :: m)
    else if c.1 = a then (if v = Config.unlistedByte then m else (a, v) :: m)
    else c :: set m a v

/-- Puts bytes at consecutive addresses from `a` upward (R289: bytes of a data record). -/
def setList : Memory → Nat → List Byte → Memory
  | m, _, [] => m
  | m, a, v :: vs => setList (set m a v) (a + 1) vs

/-- The canonical form: addresses strictly rise from at least `lo`, all are below `size`, no listed byte equals
the unlisted one. -/
def wfFrom (size : Nat) : Nat → Memory → Bool
  | _, [] => true
  | lo, c :: m => decide (lo ≤ c.1) && decide (c.1 < size) && decide (c.2 ≠ Config.unlistedByte)
      && wfFrom size (c.1 + 1) m

/-- The canonical form of a memory of `size` bytes. -/
abbrev wf (size : Nat) (m : Memory) : Prop := wfFrom size 0 m = true

end Memory

/-- In bounds: `addr < MEMSIZE`, an unsigned compare (R40). -/
def inBounds (c : Config) (a : Word) : Bool := a.toNat < c.memSize

/-- `MemByte(addr)`: an out-of-bounds byte reads 0 (R42). DESIGN CHOICE of the spec, unsafe: that 0 (decision D13;
log 13). The error flag is `inBounds`, which fetch reads for byte 0 alone (R55). -/
def memByte (c : Config) (m : Memory) (a : Word) : Byte :=
  if inBounds c a then m.get a.toNat else 0

/-- Is an 8-byte access at `addr` admitted: `addr <= MEMSIZE - 8` and `addr mod LONG_ALIGN = 0` (R45)? -/
def admitted (c : Config) (a : Word) : Bool :=
  decide (a.toNat + 8 ≤ c.memSize) && decide (a.toNat % c.longAlign = 0)

/-- The value of `MemRead(addr, 8)`, little-endian (R41, R43). DESIGN CHOICE of the spec: 0 for an access that is
not admitted (safe: never committed; decision D15; log 14) and the byte order (unsafe; decision D12; log 15). -/
def memRead8 (c : Config) (m : Memory) (a : Word) : Word :=
  if admitted c a then longOf fun i => m.get (a.toNat + i) else 0

/-- `MemWrite(addr, 8, v)`, little-endian; an access that is not admitted changes no byte (R41, R44).
DESIGN CHOICE of the spec, unsafe (decisions D12, D15; log 14, 15). -/
def memWrite8 (c : Config) (m : Memory) (a : Word) (v : Word) : Memory :=
  if admitted c a then m.setList a.toNat (longBytes v) else m

/-! ## The register file -/

/-- `read(id)` (R11). A read of the sentinel is never evaluated and is left open (R125, R128; log 21). -/
def regRead (x : Regs) (id : RegId) : Word :=
  if h : id.toNat < 15 then x[id.toNat] else Config.readNone

/-- `write(value, id)`: a write to the sentinel is a no-op (R11). -/
def regWrite (x : Regs) (id : RegId) (v : Word) : Regs :=
  if h : id.toNat < 15 then x.set id.toNat v h else x

/-- The value of a register operand when nothing is in flight: the sentinel gives 0 without a read (R71, R125). -/
def operand (x : Regs) (r : RegId) : Word := if r = rnone then 0 else regRead x r

/-! ## Pipeline registers -/

/-- The control a pipeline register applies at the high phase (R83, R84). -/
inductive Ctl where
  | normal
  | stall
  | bubble
deriving DecidableEq, Repr

/-- The high phase of one pipeline register: exactly one of normal, stall, bubble, uniformly for all its fields
(R83, R84). -/
def latch {α : Type} (ctl : Ctl) (bubble committed pending : α) : α :=
  match ctl with
  | .normal => pending
  | .stall => committed
  | .bubble => bubble

/-! ## The stop -/

/-- THE ONE SHARED OPERATION THAT TAKES AN EXCEPTION. There is no handler: "no state is saved, no mode changes,
control goes nowhere"; the machine stops with the status that reached W (R92, R264 to R266). No return from it
exists (R270). -/
def State.takeStop (s : State) (status : Stat) : State :=
  { s with stopped := true, exitStatus := some status }

/-! ## Loading -/

/-- Bytes placed in memory from outside the machine before it runs; a byte out of bounds is not placed
(R282, R289; log 27). -/
def State.load (c : Config) (s : State) (a : Nat) (bytes : List Byte) : State :=
  { s with mem := s.mem.setList a (bytes.take (c.memSize - a)) }

end Sys2Proof.Machine
end

