-- ==== Sys2Proof/Machine/Fetch.lean ====
section
/-! DEFINITION. fetch_stage (spec/41_fetch_stage.md): the fetch address, the bytes, the instruction record, the
prediction. -/

namespace Sys2Proof.Machine

/-- What Fetch computes in a cycle: the pending inputs of D and F (R108, R109). -/
structure FetchOut where
  stat   : Stat
  icode  : Icode
  ifun   : Nibble
  rA     : RegId
  rB     : RegId
  valC   : Word
  valP   : Word
  predPC : Word
deriving DecidableEq, Repr

/-- `f_pc`: a mispredicted jump in M, else a RETURN in W, else the prediction (R100). -/
def selectPC (F : FReg) (M : MReg) (W : WReg) : Word :=
  if M.icode = .jxx ∧ M.cnd = false then M.valA
  else if W.icode = .ret then W.valM
  else F.predPC

/-- The status of a byte in bounds: invalid instruction before halt (R103). -/
def fetchStat (ic : Icode) : Stat :=
  if ic.legal = false then .ins else if ic = .halt then .hlt else .aok

/-- The record of a fetch out of bounds: a forced NOP with status SADR (R101 to R103). DESIGN CHOICE of the spec,
safe: `ifun = 0` (decision D13; log 13). -/
def fetchedOutOfBounds (pc : Word) : FetchOut :=
  { stat := .adr, icode := .nop, ifun := 0, rA := rnone, rB := rnone, valC := 0, valP := pc + 1, predPC := pc + 1 }

/-- The fall-through address, modulo 2^64 (R15, R105; decision D9, log 22). -/
def fallThrough (ic : Icode) (pc : Word) : Word := pc + BitVec.ofNat 64 ic.length

/-- Fetch, byte by byte as the stage rules give it (R101 to R109, R111, R112). -/
def fetchStage (c : Config) (m : Memory) (pc : Word) : FetchOut :=
  if inBounds c pc then
    let byte0 := memByte c m pc
    let ic := Icode.ofNibble c (hiNibble byte0)
    let byte1 := memByte c m (pc + 1)
    let at0 : Word := pc + 1 + BitVec.ofNat 64 ic.needRegids.toNat
    let valC := if ic.needValC then longOf fun k => memByte c m (at0 + BitVec.ofNat 64 k) else 0
    let valP := fallThrough ic pc
    { stat   := fetchStat ic
      icode  := ic
      ifun   := loNibble byte0
      rA     := if ic.needRegids then hiNibble byte1 else rnone
      rB     := if ic.needRegids then loNibble byte1 else rnone
      valC   := valC
      valP   := valP
      predPC := if ic = .jxx ∨ ic = .call then valC else valP }
  else fetchedOutOfBounds pc

/-- The bytes an instruction fetched at `pc` can have, for the decoder: ten bytes from `pc` upward, a byte beyond
the end of memory reading 0 (R46, R111); none when `pc` itself is out of bounds (R101). -/
def fetchBytes (c : Config) (m : Memory) (pc : Word) : List Byte :=
  if inBounds c pc then
    [memByte c m pc, memByte c m (pc + 1), memByte c m (pc + 2), memByte c m (pc + 3), memByte c m (pc + 4),
     memByte c m (pc + 5), memByte c m (pc + 6), memByte c m (pc + 7), memByte c m (pc + 8), memByte c m (pc + 9)]
  else []

/-! ## The record of an instruction, by format (R60, R102 to R108) -/

/-- Format O: one byte, no ids, no constant. -/
def fetchedO (stat : Stat) (ic : Icode) (fn : Nibble) (pc : Word) : FetchOut :=
  { stat := stat, icode := ic, ifun := fn, rA := rnone, rB := rnone, valC := 0, valP := pc + 1, predPC := pc + 1 }

/-- Format R: two bytes. -/
def fetchedR (ic : Icode) (fn : Nibble) (rA rB : RegId) (pc : Word) : FetchOut :=
  { stat := .aok, icode := ic, ifun := fn, rA := rA, rB := rB, valC := 0, valP := pc + 2, predPC := pc + 2 }

/-- Format I: ten bytes. -/
def fetchedI (ic : Icode) (fn : Nibble) (rA rB : RegId) (v : Word) (pc : Word) : FetchOut :=
  { stat := .aok, icode := ic, ifun := fn, rA := rA, rB := rB, valC := v, valP := pc + 10, predPC := pc + 10 }

/-- Format J: nine bytes; "every jump, conditional or not, is predicted taken" (R108). -/
def fetchedJ (ic : Icode) (fn : Nibble) (dest : Word) (pc : Word) : FetchOut :=
  { stat := .aok, icode := ic, ifun := fn, rA := rnone, rB := rnone, valC := dest, valP := pc + 9, predPC := dest }

end Sys2Proof.Machine
end

