-- ==== Sys2Proof/Machine/Flags.lean ====
section
/-! DEFINITION. The ALU, the conditions and every flag computation (spec/43_execute_stage_alu_cc.md R144 to R155). -/

namespace Sys2Proof.Machine

/-- The ALU by function; `sub` is `aluB - aluA` (R144). -/
def applyAlu (f : AluFn) (aluA aluB : Word) : Word :=
  match f with
  | .add => aluB + aluA
  | .sub => aluB - aluA
  | .and => aluB &&& aluA
  | .xor => aluB ^^^ aluA

/-- The ALU by function number. DESIGN CHOICE of the spec, unsafe: 0 for a number that names no function
(R71, R144; decision D14; log 12). -/
def alu (c : Config) (fn : Nibble) (aluA aluB : Word) : Word :=
  match AluFn.ofIfun c fn with
  | some f => applyAlu f aluA aluB
  | none => 0

/-- `add_overflow` with the result `r` (R155). PRESUMED, safe (the spec's general knowledge G5; log 24). -/
def addOverflow (aluA aluB r : Word) : Bool := aluA.msb == aluB.msb && r.msb != aluA.msb

/-- `sub_overflow` of `aluB - aluA` with the result `r` (R155). PRESUMED, safe (G5; log 24). -/
def subOverflow (aluA aluB r : Word) : Bool := aluA.msb != aluB.msb && r.msb != aluB.msb

/-- OF after a function that is neither add nor sub (R154, conflict C5; log 4). -/
def logicOf (c : Config) (old : Bool) : Bool :=
  match c.ofLogic with
  | .unchanged => old
  | .cleared => false

/-- The flags an OPQ writes from its result `r` (R154). -/
def aluFlags (c : Config) (fn : Nibble) (aluA aluB r : Word) (old : Flags) : Flags where
  zf := r == 0
  sf := r.msb
  of :=
    match AluFn.ofIfun c fn with
    | some .add => addOverflow aluA aluB r
    | some .sub => subOverflow aluA aluB r
    | some .and | some .xor | none => logicOf c old.of

/-- A relation over the flags (R150). PRESUMED, safe: the flag formulas (G5; log 24). -/
def condHolds (r : Cond) (f : Flags) : Bool :=
  match r with
  | .always => true
  | .le => (f.sf ^^ f.of) || f.zf
  | .l => f.sf ^^ f.of
  | .e => f.zf
  | .ne => !f.zf
  | .ge => !(f.sf ^^ f.of)
  | .g => !(f.sf ^^ f.of) && !f.zf

/-- `cond(ifun, ZF, SF, OF)`. DESIGN CHOICE of the spec, unsafe: false for a number that names no relation
(R71, R150; decision D14; log 12). -/
def cond (c : Config) (fn : Nibble) (f : Flags) : Bool :=
  match Cond.ofIfun c fn with
  | some r => condHolds r f
  | none => false

/-- `set_cc`: is the flag store written this cycle (R153)? -/
def setCc (icode : Icode) (mStat wStat : Stat) : Bool :=
  icode == .opq && !mStat.abnormal && !wStat.abnormal

end Sys2Proof.Machine
end

