-- ==== Sys2Proof/Machine/Operands.lean ====
section
/-! DEFINITION. Every choice of an operand: the source and destination ids and the forwarding network of Decode
(spec/42_decode_stage_forwarding.md), the ALU inputs of Execute (spec/43_execute_stage_alu_cc.md R141 to R143),
and the data address of the Memory stage (spec/44_memory_stage.md R170, R171, R177). -/

namespace Sys2Proof.Machine

/-! ## Decode: ids (R121 to R124, R130) -/

/-- `d_srcA` (R121). -/
def srcA (c : Config) (icode : Icode) (rA : RegId) : RegId :=
  match icode with
  | .rrmovq | .rmmovq | .opq | .pushq => rA
  | .popq | .ret => c.rsp
  | .halt | .nop | .irmovq | .mrmovq | .jxx | .call | .illegal _ => rnone

/-- `d_srcB` (R122). -/
def srcB (c : Config) (icode : Icode) (rB : RegId) : RegId :=
  match icode with
  | .opq | .rmmovq | .mrmovq => rB
  | .pushq | .popq | .call | .ret => c.rsp
  | .halt | .nop | .rrmovq | .irmovq | .jxx | .illegal _ => rnone

/-- `d_dstE` (R123). -/
def dstE (c : Config) (icode : Icode) (rB : RegId) : RegId :=
  match icode with
  | .rrmovq | .irmovq | .opq => rB
  | .pushq | .popq | .call | .ret => c.rsp
  | .halt | .nop | .rmmovq | .mrmovq | .jxx | .illegal _ => rnone

/-- `d_dstM` (R124). -/
def dstM (icode : Icode) (rA : RegId) : RegId :=
  match icode with
  | .mrmovq | .popq => rA
  | .halt | .nop | .rrmovq | .irmovq | .rmmovq | .opq | .jxx | .call | .ret | .pushq | .illegal _ => rnone

/-! ## Decode: operand values (R125 to R128) -/

/-- A destination id with the value on its way to it. -/
structure Source where
  id    : RegId
  value : Word
deriving DecidableEq, Repr

/-- The values the forwarding network sees in one cycle (R120). -/
structure Forwards where
  /-- `e_dstE`, `e_valE` -/
  e  : Source
  /-- `M_dstE`, `M_valE` -/
  mE : Source
  /-- `M_dstM`, `m_valM` -/
  mM : Source
  /-- `W_dstM`, `W_valM` -/
  wM : Source
  /-- `W_dstE`, `W_valE` -/
  wE : Source
deriving DecidableEq, Repr

/-- The forwarding chain in its priority order; `FWD_M_ORDER` orders the two destinations of M (R125, R132, C4). -/
def Forwards.chain (c : Config) (f : Forwards) : List Source :=
  match c.fwdMOrder with
  | .dstEFirst => [f.e, f.mE, f.mM, f.wM, f.wE]
  | .dstMFirst => [f.e, f.mM, f.mE, f.wM, f.wE]

/-- The first match of the chain, else the register file. -/
def firstMatch (x : Regs) (s : RegId) : List Source → Word
  | [] => regRead x s
  | p :: ps => if s = p.id then p.value else firstMatch x s ps

/-- `fwd(s)`: "priority order, first match wins"; the sentinel test is first and gives 0 (R125). -/
def fwd (c : Config) (f : Forwards) (x : Regs) (s : RegId) : Word :=
  if s = rnone then 0 else firstMatch x s (f.chain c)

/-- `d_valA`: for CALL and JUMP the fall-through address, "bypassing the table" (R126). -/
def valA (c : Config) (f : Forwards) (x : Regs) (D : DReg) : Word :=
  match D.icode with
  | .call | .jxx => D.valP
  | .halt | .nop | .rrmovq | .irmovq | .rmmovq | .mrmovq | .opq | .ret | .pushq | .popq
  | .illegal _ => fwd c f x (srcA c D.icode D.rA)

/-- `d_valB` (R127). -/
def valB (c : Config) (f : Forwards) (x : Regs) (D : DReg) : Word := fwd c f x (srcB c D.icode D.rB)

/-! ## Execute: ALU operands (R141 to R143) -/

/-- `aluA` (R141). -/
def aluA (E : EReg) : Word :=
  match E.icode with
  | .rrmovq | .opq => E.valA
  | .irmovq | .rmmovq | .mrmovq => E.valC
  | .call | .pushq => -8
  | .ret | .popq => 8
  | .halt | .nop | .jxx | .illegal _ => 0

/-- `aluB` (R142). -/
def aluB (E : EReg) : Word :=
  match E.icode with
  | .rmmovq | .mrmovq | .opq | .call | .pushq | .ret | .popq => E.valB
  | .halt | .nop | .rrmovq | .irmovq | .jxx | .illegal _ => 0

/-- `alufun`: "ifun for OPQ, else 'add' (opcode 0)" (R143). -/
def aluFun (c : Config) (E : EReg) : Nibble :=
  match E.icode with
  | .opq => E.ifun
  | .halt | .nop | .rrmovq | .irmovq | .rmmovq | .mrmovq | .jxx | .call | .ret | .pushq | .popq
  | .illegal _ => AluFn.add.ifun c

/-- `e_dstE`: a conditional move that does not move writes nothing (R152). -/
def dstEAfterCond (icode : Icode) (cnd : Bool) (dst : RegId) : RegId :=
  if icode = .rrmovq ∧ cnd = false then rnone else dst

/-! ## Memory: address and access (R170, R171) -/

/-- `mem_addr` (R170). -/
def memAddr (M : MReg) : Word :=
  match M.icode with
  | .rmmovq | .pushq | .call | .mrmovq => M.valE
  | .popq | .ret => M.valA
  | .halt | .nop | .rrmovq | .irmovq | .opq | .jxx | .illegal _ => 0

/-- `mem_read` (R171). -/
def readsMem : Icode → Bool
  | .mrmovq | .popq | .ret => true
  | .halt | .nop | .rrmovq | .irmovq | .rmmovq | .opq | .jxx | .call | .pushq | .illegal _ => false

/-- `mem_write` (R171). -/
def writesMem : Icode → Bool
  | .rmmovq | .pushq | .call => true
  | .halt | .nop | .rrmovq | .irmovq | .mrmovq | .opq | .jxx | .ret | .popq | .illegal _ => false

end Sys2Proof.Machine
end

