-- ==== Sys2Proof/Machine/Stages.lean ====
section
/-! DEFINITION. memory_stage, execute_stage, decode_stage, writeback_stage and the hazard_detection_unit, each the
function of one low phase (spec files 42 to 46). -/

namespace Sys2Proof.Machine

/-! ## memory_stage (spec/44_memory_stage.md) -/

/-- What the Memory stage computes in a cycle. `mem` is the memory after this cycle's store. -/
structure MemOut where
  error : Bool
  valM  : Word
  mem   : Memory
  stat  : Stat
deriving DecidableEq, Repr

/-- `mem_error` (R172). -/
def memError (c : Config) (M : MReg) : Bool :=
  (readsMem M.icode || writesMem M.icode) && !admitted c (memAddr M)

/-- One load, one store or nothing; the store takes effect here, before this cycle's fetch (R171 to R175, R53;
decision D16, log 16). -/
def memoryStage (c : Config) (m : Memory) (M : MReg) : MemOut where
  error := memError c M
  valM  := if readsMem M.icode ∧ memError c M = false then memRead8 c m (memAddr M) else 0
  mem   := if writesMem M.icode ∧ memError c M = false then memWrite8 c m (memAddr M) M.valA else m
  stat  := if memError c M then .adr else M.stat

/-! ## execute_stage (spec/43_execute_stage_alu_cc.md) -/

/-- What Execute computes in a cycle. `flags` is the flag store after this cycle's write. -/
structure ExeOut where
  valE  : Word
  cnd   : Bool
  dstE  : RegId
  flags : Flags
deriving DecidableEq, Repr

/-- `e_valE` (R144, R146). -/
def exeValE (c : Config) (E : EReg) : Word := alu c (aluFun c E) (aluA E) (aluB E)

/-- `e_Cnd`: from the flags at the start of the cycle, for JUMP and RRMOVQ only (R151, R156). -/
def exeCnd (c : Config) (E : EReg) (f : Flags) : Bool :=
  match E.icode with
  | .jxx | .rrmovq => cond c E.ifun f
  | .halt | .nop | .irmovq | .rmmovq | .mrmovq | .opq | .call | .ret | .pushq | .popq | .illegal _ => false

/-- Execute (R140 to R158). -/
def executeStage (c : Config) (f : Flags) (E : EReg) (mStat wStat : Stat) : ExeOut where
  valE  := exeValE c E
  cnd   := exeCnd c E f
  dstE  := dstEAfterCond E.icode (exeCnd c E f) E.dstE
  flags := if setCc E.icode mStat wStat then aluFlags c (aluFun c E) (aluA E) (aluB E) (exeValE c E) f else f

/-! ## decode_stage (spec/42_decode_stage_forwarding.md) -/

/-- What Decode computes in a cycle (R129). -/
structure DecOut where
  srcA : RegId
  srcB : RegId
  dstE : RegId
  dstM : RegId
  valA : Word
  valB : Word
deriving DecidableEq, Repr

/-- The values in flight that Decode sees (R120). -/
def forwards (e : ExeOut) (m : MemOut) (M : MReg) (W : WReg) : Forwards where
  e  := ⟨e.dstE, e.valE⟩
  mE := ⟨M.dstE, M.valE⟩
  mM := ⟨M.dstM, m.valM⟩
  wM := ⟨W.dstM, W.valM⟩
  wE := ⟨W.dstE, W.valE⟩

/-- Decode (R120 to R132). -/
def decodeStage (c : Config) (x : Regs) (f : Forwards) (D : DReg) : DecOut where
  srcA := srcA c D.icode D.rA
  srcB := srcB c D.icode D.rB
  dstE := dstE c D.icode D.rB
  dstM := dstM D.icode D.rA
  valA := valA c f x D
  valB := valB c f x D

/-! ## writeback_stage (spec/45_writeback_stage.md) -/

/-- `w_stop` (R180). -/
def wStop (W : WReg) : Bool := W.stat.abnormal || W.icode == .halt

/-- The commit of W: `valE` to `dstE`, then `valM` to `dstM` (R181, R182; decision D19, log 18). -/
def commit (W : WReg) (x : Regs) : Regs := regWrite (regWrite x W.dstE W.valE) W.dstM W.valM

/-- Writeback at the high phase: stop and write nothing, or commit (R180 to R184, R266). -/
def writeback (s : State) : State :=
  if wStop s.W then s.takeStop s.W.stat else { s with regs := commit s.W s.regs }

/-! ## hazard_detection_unit (spec/46_hazard_control.md) -/

/-- The load-use hazard; plain equality, sentinel included (R190; decision D20, log 19). -/
def loadUse (E : EReg) (dSrcA dSrcB : RegId) : Bool :=
  (E.icode == .mrmovq || E.icode == .popq) && (E.dstM == dSrcA || E.dstM == dSrcB)

/-- The return-drain hazard: D, E and M, not W (R191). -/
def retDrain (D : DReg) (E : EReg) (M : MReg) : Bool :=
  D.icode == .ret || E.icode == .ret || M.icode == .ret

/-- The mispredicted branch (R192). -/
def mispredict (E : EReg) (eCnd : Bool) : Bool := E.icode == .jxx && !eCnd

/-- `F_ctl` (R193). -/
def fCtl (loaduse retdrain : Bool) : Ctl := if loaduse || retdrain then .stall else .normal

/-- `D_ctl` under each value of `RET_DRAIN_D` (R194, conflict C3; log 2). -/
def dCtl (c : Config) (loaduse retdrain mispred : Bool) : Ctl :=
  if loaduse then .stall
  else match c.retDrainD with
    | .normal => if retdrain then .normal else if mispred then .bubble else .normal
    | .bubble => if mispred || retdrain then .bubble else .normal

/-- `E_ctl` (R195). -/
def eCtl (loaduse mispred : Bool) : Ctl := if loaduse || mispred then .bubble else .normal

/-- `M_ctl` (R196). -/
def mCtl (mStat wStat : Stat) : Ctl := if mStat.abnormal || wStat.abnormal then .bubble else .normal

end Sys2Proof.Machine
end

