-- ==== Sys2Proof/Machine/Cycle.lean ====
section
/-! DEFINITION. The whole clock cycle as one function (spec/40_pipeline_registers_and_clock.md R80 to R91). -/

namespace Sys2Proof.Machine

/-- Everything the low phase settles, in the order W, M, E, D, F (R80, R81). -/
structure LowPhase where
  m    : MemOut
  e    : ExeOut
  d    : DecOut
  fPC  : Word
  f    : FetchOut
  fCtl : Ctl
  dCtl : Ctl
  eCtl : Ctl
  mCtl : Ctl
deriving DecidableEq, Repr

/-- `m_valM`, the memory after this cycle's store, `m_stat`: the Memory stage of state `s`. -/
def memOut (c : Config) (s : State) : MemOut := memoryStage c s.mem s.M

/-- Execute of state `s`. -/
def exeOut (c : Config) (s : State) : ExeOut := executeStage c s.flags s.E (memOut c s).stat s.W.stat

/-- Decode of state `s`. -/
def decOut (c : Config) (s : State) : DecOut :=
  decodeStage c s.regs (forwards (exeOut c s) (memOut c s) s.M s.W) s.D

/-- `f_pc` of state `s` (R100). -/
def fetchPC (s : State) : Word := selectPC s.F s.M s.W

/-- `loaduse` in state `s` (R190). -/
def loadUseNow (c : Config) (s : State) : Bool := loadUse s.E (decOut c s).srcA (decOut c s).srcB

/-- `retdrain` in state `s` (R191). -/
def retDrainNow (s : State) : Bool := retDrain s.D s.E s.M

/-- `mispredict` in state `s` (R192). -/
def mispredictNow (c : Config) (s : State) : Bool := mispredict s.E (exeOut c s).cnd

/-- `F_ctl` in state `s` (R193). -/
def fCtlNow (c : Config) (s : State) : Ctl := fCtl (loadUseNow c s) (retDrainNow s)

/-- `D_ctl` in state `s` (R194). -/
def dCtlNow (c : Config) (s : State) : Ctl := dCtl c (loadUseNow c s) (retDrainNow s) (mispredictNow c s)

/-- `E_ctl` in state `s` (R195). -/
def eCtlNow (c : Config) (s : State) : Ctl := eCtl (loadUseNow c s) (mispredictNow c s)

/-- `M_ctl` in state `s` (R196). -/
def mCtlNow (c : Config) (s : State) : Ctl := mCtl (memOut c s).stat s.W.stat

/-- The low phase, for a fetch that reads `fetch mem pc` (R80, R81, R91; decision D10, log 23). -/
def lowPhase (c : Config) (fetch : Memory → Word → FetchOut) (s : State) : LowPhase where
  m    := memOut c s
  e    := exeOut c s
  d    := decOut c s
  fPC  := fetchPC s
  f    := fetch (memOut c s).mem (fetchPC s)
  fCtl := fCtlNow c s
  dCtl := dCtlNow c s
  eCtl := eCtlNow c s
  mCtl := mCtlNow c s

/-- Pending input of D (R109). -/
def pendingD (f : FetchOut) : DReg :=
  { stat := f.stat, icode := f.icode, ifun := f.ifun, rA := f.rA, rB := f.rB, valC := f.valC, valP := f.valP }

/-- Pending input of E (R129). -/
def pendingE (D : DReg) (d : DecOut) : EReg :=
  { stat := D.stat, icode := D.icode, ifun := D.ifun, valC := D.valC, valA := d.valA, valB := d.valB,
    dstE := d.dstE, dstM := d.dstM, srcA := d.srcA, srcB := d.srcB }

/-- Pending input of M (R157). -/
def pendingM (E : EReg) (e : ExeOut) : MReg :=
  { stat := E.stat, icode := E.icode, cnd := e.cnd, valE := e.valE, valA := E.valA, dstE := e.dstE, dstM := E.dstM }

/-- Pending input of W (R176). -/
def pendingW (M : MReg) (m : MemOut) : WReg :=
  { stat := m.stat, icode := M.icode, valE := M.valE, valM := m.valM, dstE := M.dstE, dstM := M.dstM }

/-- The high phase: Writeback's effect and the simultaneous latch of all five registers, W always normally
(R82, R83, R91, R197; decision D7, log 20). The flags and the memory are those the low phase settled. -/
def highPhase (s : State) (l : LowPhase) : State :=
  { writeback s with
    flags := l.e.flags
    mem   := l.m.mem
    F     := latch l.fCtl s.F s.F { predPC := l.f.predPC }
    D     := latch l.dCtl .bubble s.D (pendingD l.f)
    E     := latch l.eCtl .bubble s.E (pendingE s.D l.d)
    M     := latch l.mCtl .bubble s.M (pendingM s.E l.e)
    W     := pendingW s.M l.m }

/-- `cycle(S)` for a running machine (R91). -/
def cycleState (c : Config) (fetch : Memory → Word → FetchOut) (s : State) : State :=
  highPhase s (lowPhase c fetch s)

/-- One clock cycle; a stopped machine has none (R25, R91, R92; log 20). -/
def clock (c : Config) (fetch : Memory → Word → FetchOut) (s : State) : Host.Outcome State Fault Refusal :=
  if s.stopped then .fault .machineStopped else .next (cycleState c fetch s)

/-- The clock cycle of the stage rules, at any parameters: Fetch reads the bytes at `f_pc` (R91, R92). -/
def cycle (c : Config) (s : State) : Host.Outcome State Fault Refusal := clock c (fetchStage c) s

/-- The clock cycle, at the machine's parameters, in which Fetch finds the instruction whose record at address
`pc` is `record pc`. Every instruction's meaning is this operation over its own record: the other four stages
run, in the same cycle, the four instructions ahead of it (R2, R80, R91; log 1). -/
def issue (record : Word → FetchOut) (s : State) : Host.Outcome State Fault Refusal :=
  clock Config.machine (fun _ pc => record pc) s

/-! ## Placing an instruction under the fetch (log 27) -/

/-- `s` with `a` as the address R100 selects, in the field that it selects from. -/
def redirectFetch (s : State) (a : Word) : State :=
  if s.M.icode = .jxx ∧ s.M.cnd = false then { s with M := { s.M with valA := a } }
  else if s.W.icode = .ret then { s with W := { s.W with valM := a } }
  else { s with F := { s.F with predPC := a } }

/-- Would the store that the Memory stage makes this cycle land on one of the `n` bytes from address `a`? -/
def storeOverlaps (c : Config) (M : MReg) (a n : Nat) : Bool :=
  writesMem M.icode && admitted c (memAddr M) && decide ((memAddr M).toNat < a + n)
    && decide (a < (memAddr M).toNat + 8)

/-- `s` running, with `bytes` in memory at the address its next cycle fetches from. The fetch address moves to 0 only
where the bytes would not all lie in bounds, and M becomes a bubble only where its store of that cycle would
overwrite them. -/
def placeForFetch (c : Config) (s : State) (bytes : List Byte) : State :=
  let s := if s.stopped then { s with stopped := false, exitStatus := none } else s
  let s := if (fetchPC s).toNat + bytes.length ≤ c.memSize then s else redirectFetch s 0
  let s := if storeOverlaps c s.M (fetchPC s).toNat bytes.length then { s with M := .bubble } else s
  s.load c (fetchPC s).toNat bytes

end Sys2Proof.Machine
end

