-- ==== Sys2Proof/Machine/ControlStack.lean ====
section
/-! DEFINITION. Jumps, call, ret, pushq, popq (spec/48_instructions_control_stack.md), and the bytes that are none of
the 27 instructions (spec/30_encoding.md R70, R71; spec/41_fetch_stage.md R103). See MoveAlu.lean for what a meaning
is here. -/

namespace Sys2Proof.Machine

/-- `jmp dest`: `pc <- dest` (R240). -/
def execJmp (dest : Word) (s : State) : Host.Outcome State Fault Refusal :=
  issue (fetchedJ .jxx (Cond.always.ifun Config.machine) dest) s

/-- `jle dest`: `pc <- if (SF xor OF) or ZF then dest else pc + 9` (R241). -/
def execJle (dest : Word) (s : State) : Host.Outcome State Fault Refusal :=
  issue (fetchedJ .jxx (Cond.le.ifun Config.machine) dest) s

/-- `jl dest`: taken when `SF xor OF` (R242). -/
def execJl (dest : Word) (s : State) : Host.Outcome State Fault Refusal :=
  issue (fetchedJ .jxx (Cond.l.ifun Config.machine) dest) s

/-- `je dest`: taken when `ZF` (R243). -/
def execJe (dest : Word) (s : State) : Host.Outcome State Fault Refusal :=
  issue (fetchedJ .jxx (Cond.e.ifun Config.machine) dest) s

/-- `jne dest`: taken when `not ZF` (R244). -/
def execJne (dest : Word) (s : State) : Host.Outcome State Fault Refusal :=
  issue (fetchedJ .jxx (Cond.ne.ifun Config.machine) dest) s

/-- `jge dest`: taken when `not (SF xor OF)` (R245). -/
def execJge (dest : Word) (s : State) : Host.Outcome State Fault Refusal :=
  issue (fetchedJ .jxx (Cond.ge.ifun Config.machine) dest) s

/-- `jg dest`: taken when `not (SF xor OF) and not ZF` (R246). -/
def execJg (dest : Word) (s : State) : Host.Outcome State Fault Refusal :=
  issue (fetchedJ .jxx (Cond.g.ifun Config.machine) dest) s

/-- `call dest`: stores `pc + 9` at `x[RSP] - 8`, or raises SADR (R247). Any ifun (R71). -/
def execCall (fn : Nibble) (dest : Word) (s : State) : Host.Outcome State Fault Refusal :=
  issue (fetchedJ .call fn dest) s

/-- `ret`: `pc <- MemRead(x[RSP], 8)`, or raises SADR; "a RETURN is not predicted" (R248). Any ifun (R71). -/
def execRet (fn : Nibble) (s : State) : Host.Outcome State Fault Refusal := issue (fetchedO .aok .ret fn) s

/-- `pushq rA` (R249). Any ifun, any rB nibble (R71). -/
def execPushq (fn : Nibble) (rA rB : RegId) (s : State) : Host.Outcome State Fault Refusal :=
  issue (fetchedR .pushq fn rA rB) s

/-- `popq rA` (R250). Any ifun, any rB nibble (R71). -/
def execPopq (fn : Nibble) (rA rB : RegId) (s : State) : Host.Outcome State Fault Refusal :=
  issue (fetchedR .popq fn rA rB) s

/-- The cycle in which Fetch reads bytes that are none of the 27 instructions: the machine goes on as the stage
rules stand. Out of bounds: a forced NOP with SADR (R103). An illegal class: SINS, one byte (R70). An undefined
function or relation: status OK, the result 0 or the condition false (R71; decision D14, log 12). -/
def execRejected (r : Reject) (s : State) : Host.Outcome State Fault Refusal :=
  match r with
  | .noFirstByte => issue fetchedOutOfBounds s
  | .illegalOpcode ic fn => issue (fetchedO .ins ic fn) s
  | .undefinedAluFunction fn rA rB => issue (fetchedR .opq fn rA rB) s
  | .undefinedMoveCondition fn rA rB => issue (fetchedR .rrmovq fn rA rB) s
  | .undefinedJumpCondition fn dest => issue (fetchedJ .jxx fn dest) s

end Sys2Proof.Machine
end

