-- ==== Sys2Proof/Machine/MoveAlu.lean ====
section
/-! DEFINITION. halt, nop, moves, loads, stores and ALU operations (spec/47_instructions_move_alu.md).

The meaning of an instruction is the clock cycle in which Fetch reads it: its record, with its class, function,
ids, constant, status and lengths, enters the pipeline. From that record the stage functions of Stages.lean compute
the rest of its rule in the three or four cycles that follow; its net effect, once it has passed Writeback, is in
Sequential.lean, and Certificates/Slice0/Obligations.lean states that the pipeline brings it about (log 1). -/

namespace Sys2Proof.Machine

/-- `halt`: F gives status SHLT; the machine stops when it reaches W (R210). Any ifun (R71). -/
def execHalt (fn : Nibble) (s : State) : Host.Outcome State Fault Refusal := issue (fetchedO .hlt .halt fn) s

/-- `nop` (R211). Any ifun (R71). -/
def execNop (fn : Nibble) (s : State) : Host.Outcome State Fault Refusal := issue (fetchedO .aok .nop fn) s

/-- `rrmovq rA, rB`: `x[rB] <- x[rA]` (R212). -/
def execRrmovq (rA rB : RegId) (s : State) : Host.Outcome State Fault Refusal :=
  issue (fetchedR .rrmovq (Cond.always.ifun Config.machine) rA rB) s

/-- `cmovle rA, rB`: `if (SF xor OF) or ZF then x[rB] <- x[rA]` (R213). -/
def execCmovle (rA rB : RegId) (s : State) : Host.Outcome State Fault Refusal :=
  issue (fetchedR .rrmovq (Cond.le.ifun Config.machine) rA rB) s

/-- `cmovl rA, rB`: `if SF xor OF then x[rB] <- x[rA]` (R214). -/
def execCmovl (rA rB : RegId) (s : State) : Host.Outcome State Fault Refusal :=
  issue (fetchedR .rrmovq (Cond.l.ifun Config.machine) rA rB) s

/-- `cmove rA, rB`: `if ZF then x[rB] <- x[rA]` (R215). -/
def execCmove (rA rB : RegId) (s : State) : Host.Outcome State Fault Refusal :=
  issue (fetchedR .rrmovq (Cond.e.ifun Config.machine) rA rB) s

/-- `cmovne rA, rB`: `if not ZF then x[rB] <- x[rA]` (R216). -/
def execCmovne (rA rB : RegId) (s : State) : Host.Outcome State Fault Refusal :=
  issue (fetchedR .rrmovq (Cond.ne.ifun Config.machine) rA rB) s

/-- `cmovge rA, rB`: `if not (SF xor OF) then x[rB] <- x[rA]` (R217). -/
def execCmovge (rA rB : RegId) (s : State) : Host.Outcome State Fault Refusal :=
  issue (fetchedR .rrmovq (Cond.ge.ifun Config.machine) rA rB) s

/-- `cmovg rA, rB`: `if not (SF xor OF) and not ZF then x[rB] <- x[rA]` (R218). -/
def execCmovg (rA rB : RegId) (s : State) : Host.Outcome State Fault Refusal :=
  issue (fetchedR .rrmovq (Cond.g.ifun Config.machine) rA rB) s

/-- `irmovq $v, rB`: `x[rB] <- v` (R219). Any ifun, any rA nibble (R71). -/
def execIrmovq (fn : Nibble) (rA rB : RegId) (v : Word) (s : State) : Host.Outcome State Fault Refusal :=
  issue (fetchedI .irmovq fn rA rB v) s

/-- `rmmovq rA, d(rB)`: stores `x[rA]` at `x[rB] + d`, or raises SADR (R220). Any ifun (R71). -/
def execRmmovq (fn : Nibble) (rA rB : RegId) (d : Word) (s : State) : Host.Outcome State Fault Refusal :=
  issue (fetchedI .rmmovq fn rA rB d) s

/-- `mrmovq d(rB), rA`: loads `x[rA]` from `x[rB] + d`, or raises SADR (R221). Any ifun (R71). -/
def execMrmovq (fn : Nibble) (rA rB : RegId) (d : Word) (s : State) : Host.Outcome State Fault Refusal :=
  issue (fetchedI .mrmovq fn rA rB d) s

/-- `addq rA, rB`: `x[rB] <- x[rB] + x[rA]`, flags (R222). -/
def execAddq (rA rB : RegId) (s : State) : Host.Outcome State Fault Refusal :=
  issue (fetchedR .opq (AluFn.add.ifun Config.machine) rA rB) s

/-- `subq rA, rB`: `x[rB] <- x[rB] - x[rA]`, flags (R223). -/
def execSubq (rA rB : RegId) (s : State) : Host.Outcome State Fault Refusal :=
  issue (fetchedR .opq (AluFn.sub.ifun Config.machine) rA rB) s

/-- `andq rA, rB`: `x[rB] <- x[rB] AND x[rA]`, flags (R224). -/
def execAndq (rA rB : RegId) (s : State) : Host.Outcome State Fault Refusal :=
  issue (fetchedR .opq (AluFn.and.ifun Config.machine) rA rB) s

/-- `xorq rA, rB`: `x[rB] <- x[rB] XOR x[rA]`, flags (R225). -/
def execXorq (rA rB : RegId) (s : State) : Host.Outcome State Fault Refusal :=
  issue (fetchedR .opq (AluFn.xor.ifun Config.machine) rA rB) s

end Sys2Proof.Machine
end

