-- ==== Sys2Proof/Machine/Dispatch.lean ====
section
/-! DEFINITION. One arm per instruction of spec/opcode_table.json. -/

namespace Sys2Proof.Machine

def exec (i : Instr) (s : State) : Host.Outcome State Fault Refusal :=
  match i with
  | .halt fn => Sys2Proof.Machine.execHalt fn s
  | .nop fn => Sys2Proof.Machine.execNop fn s
  | .rrmovq rA rB => Sys2Proof.Machine.execRrmovq rA rB s
  | .cmovle rA rB => Sys2Proof.Machine.execCmovle rA rB s
  | .cmovl rA rB => Sys2Proof.Machine.execCmovl rA rB s
  | .cmove rA rB => Sys2Proof.Machine.execCmove rA rB s
  | .cmovne rA rB => Sys2Proof.Machine.execCmovne rA rB s
  | .cmovge rA rB => Sys2Proof.Machine.execCmovge rA rB s
  | .cmovg rA rB => Sys2Proof.Machine.execCmovg rA rB s
  | .irmovq fn rA rB v => Sys2Proof.Machine.execIrmovq fn rA rB v s
  | .rmmovq fn rA rB d => Sys2Proof.Machine.execRmmovq fn rA rB d s
  | .mrmovq fn rA rB d => Sys2Proof.Machine.execMrmovq fn rA rB d s
  | .addq rA rB => Sys2Proof.Machine.execAddq rA rB s
  | .subq rA rB => Sys2Proof.Machine.execSubq rA rB s
  | .andq rA rB => Sys2Proof.Machine.execAndq rA rB s
  | .xorq rA rB => Sys2Proof.Machine.execXorq rA rB s
  | .jmp dest => Sys2Proof.Machine.execJmp dest s
  | .jle dest => Sys2Proof.Machine.execJle dest s
  | .jl dest => Sys2Proof.Machine.execJl dest s
  | .je dest => Sys2Proof.Machine.execJe dest s
  | .jne dest => Sys2Proof.Machine.execJne dest s
  | .jge dest => Sys2Proof.Machine.execJge dest s
  | .jg dest => Sys2Proof.Machine.execJg dest s
  | .call fn dest => Sys2Proof.Machine.execCall fn dest s
  | .ret fn => Sys2Proof.Machine.execRet fn s
  | .pushq fn rA rB => Sys2Proof.Machine.execPushq fn rA rB s
  | .popq fn rA rB => Sys2Proof.Machine.execPopq fn rA rB s

end Sys2Proof.Machine
end

