-- ==== Sys2Proof/Machine/Step.lean ====
section
/-! DEFINITION. One step of the machine: one clock cycle, run through the instruction that Fetch reads in it. -/

namespace Sys2Proof.Machine

/-- The bytes at `f_pc` in this cycle, as this cycle's store left them (R53, R100). -/
def bytesAtFetch (s : State) : List Byte :=
  fetchBytes Config.machine (memOut Config.machine s).mem (fetchPC s)

/-- One clock cycle: the meaning of the instruction Fetch reads, or the cycle of bytes that are none (R91). -/
def step (s : State) : Host.Outcome State Fault Refusal :=
  match decode Config.machine (bytesAtFetch s) with
  | .ok (i, _) => exec i s
  | .error r => execRejected r s

/-- `s` running, with the bits `w` of an instruction placed where its next cycle fetches. See `placeForFetch`. -/
def State.withFetchWord (s : State) (nbits w : Nat) : State :=
  placeForFetch Config.machine s (tableBytes nbits w)

end Sys2Proof.Machine
end

