-- ==== Sys2Proof/Machine/Sequential.lean ====
section
/-! DEFINITION. The sequential view: "the instruction at `pc` is decoded ..., its net effect is applied to `x`, the
flags and `Mem`, and `pc` takes the value the rule gives" (spec/47_instructions_move_alu.md R230). Every net effect is
derived in the spec; the clock cycle is the normative description, and `step` does not use this file (log 29). -/

namespace Sys2Proof.Machine

/-- What the sequential view acts on; `pc` is "a derived quantity, not a stored one" (R14, R230). -/
structure SeqState where
  regs  : Regs
  flags : Flags
  mem   : Memory
  pc    : Word
deriving DecidableEq, Repr

/-- The net effect of one instruction. -/
inductive SeqOutcome where
  | next (a : SeqState)
  /-- "`raise S` ends the run with `exit_status = S`, and the raising instruction changes nothing" (R230). -/
  | raise (status : Stat)
deriving DecidableEq, Repr

/-- `x[i]` where an operand is read: the sentinel gives 0 (R71, R125). -/
def seqReg (a : SeqState) (r : RegId) : Word := operand a.regs r

/-- `pc <- pc + 1` (R211). -/
def seqNop (a : SeqState) : SeqOutcome := .next { a with pc := a.pc + 1 }

/-- `if cond then x[rB] <- x[rA] ; pc <- pc + 2` (R212 to R218). -/
def seqMove (moves : Bool) (rA rB : RegId) (a : SeqState) : SeqOutcome :=
  .next { a with regs := if moves then regWrite a.regs rB (seqReg a rA) else a.regs, pc := a.pc + 2 }

/-- `x[rB] <- V ; pc <- pc + 10` (R219). -/
def seqIrmovq (rB : RegId) (v : Word) (a : SeqState) : SeqOutcome :=
  .next { a with regs := regWrite a.regs rB v, pc := a.pc + 10 }

/-- The store of R220. -/
def seqRmmovq (c : Config) (rA rB : RegId) (d : Word) (a : SeqState) : SeqOutcome :=
  let addr := seqReg a rB + d
  if admitted c addr then .next { a with mem := memWrite8 c a.mem addr (seqReg a rA), pc := a.pc + 10 }
  else .raise .adr

/-- The load of R221. -/
def seqMrmovq (c : Config) (rA rB : RegId) (d : Word) (a : SeqState) : SeqOutcome :=
  let addr := seqReg a rB + d
  if admitted c addr then .next { a with regs := regWrite a.regs rA (memRead8 c a.mem addr), pc := a.pc + 10 }
  else .raise .adr

/-- The ALU operation of R222 to R225, by function number (R71). -/
def seqAlu (c : Config) (fn : Nibble) (rA rB : RegId) (a : SeqState) : SeqOutcome :=
  let r := alu c fn (seqReg a rA) (seqReg a rB)
  .next { a with
    regs := regWrite a.regs rB r, flags := aluFlags c fn (seqReg a rA) (seqReg a rB) r a.flags, pc := a.pc + 2 }

/-- `pc <- if cond then Dest else pc + 9` (R240 to R246). -/
def seqJump (taken : Bool) (dest : Word) (a : SeqState) : SeqOutcome :=
  .next { a with pc := if taken then dest else a.pc + 9 }

/-- The call of R247. -/
def seqCall (c : Config) (dest : Word) (a : SeqState) : SeqOutcome :=
  let addr := seqReg a c.rsp - 8
  if admitted c addr then
    .next { a with mem := memWrite8 c a.mem addr (a.pc + 9), regs := regWrite a.regs c.rsp addr, pc := dest }
  else .raise .adr

/-- The return of R248. -/
def seqRet (c : Config) (a : SeqState) : SeqOutcome :=
  let addr := seqReg a c.rsp
  if admitted c addr then
    .next { a with regs := regWrite a.regs c.rsp (addr + 8), pc := memRead8 c a.mem addr }
  else .raise .adr

/-- The push of R249. -/
def seqPushq (c : Config) (rA : RegId) (a : SeqState) : SeqOutcome :=
  let addr := seqReg a c.rsp - 8
  if admitted c addr then
    .next { a with
      mem := memWrite8 c a.mem addr (seqReg a rA), regs := regWrite a.regs c.rsp addr, pc := a.pc + 2 }
  else .raise .adr

/-- The pop of R250: the stack pointer first, then the loaded value (R182). -/
def seqPopq (c : Config) (rA : RegId) (a : SeqState) : SeqOutcome :=
  let addr := seqReg a c.rsp
  if admitted c addr then
    .next { a with
      regs := regWrite (regWrite a.regs c.rsp (addr + 8)) rA (memRead8 c a.mem addr), pc := a.pc + 2 }
  else .raise .adr

/-- The net effect of each instruction (R210 to R225, R240 to R250). -/
def seqExec (c : Config) (i : Instr) (a : SeqState) : SeqOutcome :=
  match i with
  | .halt _ => .raise .hlt
  | .nop _ => seqNop a
  | .rrmovq rA rB => seqMove true rA rB a
  | .cmovle rA rB => seqMove ((a.flags.sf ^^ a.flags.of) || a.flags.zf) rA rB a
  | .cmovl rA rB => seqMove (a.flags.sf ^^ a.flags.of) rA rB a
  | .cmove rA rB => seqMove a.flags.zf rA rB a
  | .cmovne rA rB => seqMove (!a.flags.zf) rA rB a
  | .cmovge rA rB => seqMove (!(a.flags.sf ^^ a.flags.of)) rA rB a
  | .cmovg rA rB => seqMove (!(a.flags.sf ^^ a.flags.of) && !a.flags.zf) rA rB a
  | .irmovq _ _ rB v => seqIrmovq rB v a
  | .rmmovq _ rA rB d => seqRmmovq c rA rB d a
  | .mrmovq _ rA rB d => seqMrmovq c rA rB d a
  | .addq rA rB => seqAlu c (AluFn.add.ifun c) rA rB a
  | .subq rA rB => seqAlu c (AluFn.sub.ifun c) rA rB a
  | .andq rA rB => seqAlu c (AluFn.and.ifun c) rA rB a
  | .xorq rA rB => seqAlu c (AluFn.xor.ifun c) rA rB a
  | .jmp dest => seqJump true dest a
  | .jle dest => seqJump ((a.flags.sf ^^ a.flags.of) || a.flags.zf) dest a
  | .jl dest => seqJump (a.flags.sf ^^ a.flags.of) dest a
  | .je dest => seqJump a.flags.zf dest a
  | .jne dest => seqJump (!a.flags.zf) dest a
  | .jge dest => seqJump (!(a.flags.sf ^^ a.flags.of)) dest a
  | .jg dest => seqJump (!(a.flags.sf ^^ a.flags.of) && !a.flags.zf) dest a
  | .call _ dest => seqCall c dest a
  | .ret _ => seqRet c a
  | .pushq _ rA _ => seqPushq c rA a
  | .popq _ rA _ => seqPopq c rA a

/-- The net effect of bytes that are none of the 27 instructions (R71, R230; decision D14, log 12). -/
def seqRejected (c : Config) (r : Reject) (a : SeqState) : SeqOutcome :=
  match r with
  | .noFirstByte => .raise .adr
  | .illegalOpcode _ _ => .raise .ins
  | .undefinedAluFunction fn rA rB => seqAlu c fn rA rB a
  | .undefinedMoveCondition _ rA rB => seqMove false rA rB a
  | .undefinedJumpCondition _ dest => seqJump false dest a

/-- One instruction of the "non-pipelined reference execution" (R230). -/
def seqStep (c : Config) (a : SeqState) : SeqOutcome :=
  match decode c (fetchBytes c a.mem a.pc) with
  | .ok (i, _) => seqExec c i a
  | .error r => seqRejected c r a

end Sys2Proof.Machine
end

