-- ==== Sys2Proof/Safety.lean ====
section
/-! DEFINITION. What counts as a legal state, a ready state and the passage of one instruction through the pipeline:
the terms the statements of Certificates/Slice0/Obligations.lean use. -/

namespace Sys2Proof.Machine

/-! ## Legal states: what every run keeps -/

/-- A status that Fetch gives to this class (R103), or a bubble's. -/
def fetchStatLegal (stat : Stat) (icode : Icode) : Bool :=
  match stat with
  | .aok => icode.legal && icode != .halt
  | .hlt => icode == .halt
  | .adr => icode == .nop
  | .ins => !icode.legal

/-- A status an instruction of this class can have in W: Fetch's, or an address error of its access (R175, R261). -/
def wStatLegal (stat : Stat) (icode : Icode) : Bool :=
  fetchStatLegal stat icode || (stat == .adr && (readsMem icode || writesMem icode))

/-- The destinations that Decode gives this class, a cancelled conditional move's among them (R123, R124, R152). -/
def destinationsLegal (c : Config) (icode : Icode) (dE dM : RegId) : Bool :=
  (dE == dstE c icode dE) && (dM == dstM icode dM)

/-- The ids and the constant that Fetch gives this class (R106, R107). -/
def fetchedFieldsLegal (D : DReg) : Bool :=
  (D.icode.needRegids || (D.rA == rnone && D.rB == rnone)) && (D.icode.needValC || D.valC == 0)

/-- The invariant of the machine: the memory is in its canonical form within bounds; every status fits its class;
every destination fits its class; a condition is kept for a jump or a move only (R151); behind an abnormal status in
W, M holds a bubble (R93, R196); a stopped machine has a status, and not OK (R25, R266). -/
abbrev Legal (c : Config) (s : State) : Prop :=
  Memory.wf c.memSize s.mem ∧
  fetchStatLegal s.D.stat s.D.icode = true ∧
  fetchedFieldsLegal s.D = true ∧
  fetchStatLegal s.E.stat s.E.icode = true ∧
  destinationsLegal c s.E.icode s.E.dstE s.E.dstM = true ∧
  fetchStatLegal s.M.stat s.M.icode = true ∧
  destinationsLegal c s.M.icode s.M.dstE s.M.dstM = true ∧
  (s.M.cnd = true → s.M.icode = .jxx ∨ s.M.icode = .rrmovq) ∧
  wStatLegal s.W.stat s.W.icode = true ∧
  destinationsLegal c s.W.icode s.W.dstE s.W.dstM = true ∧
  (s.W.stat ≠ .aok → s.M = .bubble) ∧
  s.stopped = s.exitStatus.isSome ∧
  s.exitStatus ≠ some .aok

/-! ## Ready states: nothing in flight -/

/-- A running machine whose D, E, M and W hold NOPs with status OK, as after reset (R28): nothing in flight has an
effect. The values such NOPs carry are left open. -/
abbrev Ready (s : State) : Prop :=
  s.stopped = false ∧
  (s.D.stat = .aok ∧ s.D.icode = .nop) ∧
  (s.E.stat = .aok ∧ s.E.icode = .nop ∧ s.E.dstE = rnone ∧ s.E.dstM = rnone) ∧
  (s.M.stat = .aok ∧ s.M.icode = .nop ∧ s.M.dstE = rnone ∧ s.M.dstM = rnone) ∧
  (s.W.stat = .aok ∧ s.W.icode = .nop ∧ s.W.dstE = rnone ∧ s.W.dstM = rnone)

/-- What a ready state is in the sequential view (R14, R230). -/
def seqOf (s : State) : SeqState := { regs := s.regs, flags := s.flags, mem := s.mem, pc := fetchPC s }

/-! ## The passage of one instruction (R230: fetched in cycle c, in D in c+1, E in c+2, M in c+3, W in c+4) -/

/-- The five states after the cycle that fetches `i` and the four cycles that follow it, whatever these fetch. -/
structure Passage (first : Host.Outcome State Fault Refusal) (t1 t2 t3 t4 t5 : State) : Prop where
  fetched   : first = .next t1
  decoded   : step t1 = .next t2
  executed  : step t2 = .next t3
  accessed  : step t3 = .next t4
  committed : step t4 = .next t5

/-- From `s` the passage that begins with `first` ends with the net effect `a`, each part in its cycle and nothing
else before it: "its flag write happens in c+2, its memory access in c+3, its register writes at the end of c+4"
(R230); the machine runs on, and Fetch reads from `a.pc` after `lost` lost cycles (R287): 0 as predicted (R108), 2
from `M_valA` (R100), 3 from `W_valM` unless a mispredicted jump is in M, which R100 puts first. -/
def CompletesFrom (first : Host.Outcome State Fault Refusal) (s : State) (a : SeqState) (lost : Nat) : Prop :=
  ∃ t1 t2 t3 t4 t5, Passage first t1 t2 t3 t4 t5 ∧
    (t1.regs = s.regs ∧ t2.regs = s.regs ∧ t3.regs = s.regs ∧ t4.regs = s.regs ∧ t5.regs = a.regs) ∧
    (t1.flags = s.flags ∧ t2.flags = s.flags ∧ t3.flags = a.flags) ∧
    (t1.mem = s.mem ∧ t2.mem = s.mem ∧ t3.mem = s.mem ∧ t4.mem = a.mem) ∧
    (t5.stopped = false ∧ t5.exitStatus = s.exitStatus) ∧
    (lost = 0 → fetchPC t1 = a.pc) ∧
    (lost = 2 → fetchPC t3 = a.pc) ∧
    (lost = 3 → t4.M.icode = .jxx ∧ t4.M.cnd = false ∨ fetchPC t4 = a.pc)

/-- From `s` the passage that begins with `first` ends with the machine stopped with this status, and neither the
instruction nor a younger one has changed a register, a flag or a byte (R230, R265, R266). -/
def RaisesFrom (first : Host.Outcome State Fault Refusal) (s : State) (status : Stat) : Prop :=
  ∃ t1 t2 t3 t4 t5, Passage first t1 t2 t3 t4 t5 ∧
    t5.stopped = true ∧ t5.exitStatus = some status ∧ t5.regs = s.regs ∧ t5.flags = s.flags ∧ t5.mem = s.mem

/-- The instruction `i`, fetched in state `s`, completes with the net effect `a`. -/
abbrev Completes (i : Instr) (s : State) (a : SeqState) (lost : Nat) : Prop := CompletesFrom (exec i s) s a lost

/-- The instruction `i`, fetched in state `s`, stops the machine with this status. -/
abbrev Raises (i : Instr) (s : State) (status : Stat) : Prop := RaisesFrom (exec i s) s status

/-- The relation a conditional jump or move of the 27 instructions tests; the others test none. -/
def jumpCondition : Instr → Option Cond
  | .jmp _ => some .always
  | .jle _ => some .le
  | .jl _ => some .l
  | .je _ => some .e
  | .jne _ => some .ne
  | .jge _ => some .ge
  | .jg _ => some .g
  | .halt _ | .nop _ | .rrmovq _ _ | .cmovle _ _ | .cmovl _ _ | .cmove _ _ | .cmovne _ _ | .cmovge _ _ | .cmovg _ _
  | .irmovq _ _ _ _ | .rmmovq _ _ _ _ | .mrmovq _ _ _ _ | .addq _ _ | .subq _ _ | .andq _ _ | .xorq _ _
  | .call _ _ | .ret _ | .pushq _ _ _ | .popq _ _ _ => none

/-- The constant that Fetch predicts as the next address: a jump's or a call's (R108). -/
def constantTarget : Instr → Option Word
  | .jmp dest | .jle dest | .jl dest | .je dest | .jne dest | .jge dest | .jg dest | .call _ dest => some dest
  | .halt _ | .nop _ | .rrmovq _ _ | .cmovle _ _ | .cmovl _ _ | .cmove _ _ | .cmovne _ _ | .cmovge _ _ | .cmovg _ _
  | .irmovq _ _ _ _ | .rmmovq _ _ _ _ | .mrmovq _ _ _ _ | .addq _ _ | .subq _ _ | .andq _ _ | .xorq _ _
  | .ret _ | .pushq _ _ _ | .popq _ _ _ => none

/-- The cycles an instruction loses when nothing is in flight (R287). -/
def lostCycles (i : Instr) (f : Flags) : Nat :=
  match i with
  | .ret _ => 3
  | .jmp _ | .jle _ | .jl _ | .je _ | .jne _ | .jge _ | .jg _ =>
    match jumpCondition i with
    | some r => if condHolds r f then 0 else 2
    | none => 0
  | .halt _ | .nop _ | .rrmovq _ _ | .cmovle _ _ | .cmovl _ _ | .cmove _ _ | .cmovne _ _ | .cmovge _ _ | .cmovg _ _
  | .irmovq _ _ _ _ | .rmmovq _ _ _ _ | .mrmovq _ _ _ _ | .addq _ _ | .subq _ _ | .andq _ _ | .xorq _ _
  | .call _ _ | .pushq _ _ _ | .popq _ _ _ => 0

/-! ## Operands (R125 to R127) -/

/-- `v` is what the forwarding chain gives for the source id `r` in state `s`, as R125 lists it: the sentinel is 0,
then the first match in the order Execute, M's two destinations, W's M-destination, W's E-destination, then the
register file. -/
def ResolvesTo (c : Config) (s : State) (r : RegId) (v : Word) : Prop :=
  (r = rnone → v = 0) ∧
  (r ≠ rnone → r = (exeOut c s).dstE → v = (exeOut c s).valE) ∧
  (r ≠ rnone → r ≠ (exeOut c s).dstE → r = s.M.dstE → (c.fwdMOrder = .dstEFirst ∨ r ≠ s.M.dstM) → v = s.M.valE) ∧
  (r ≠ rnone → r ≠ (exeOut c s).dstE → r = s.M.dstM → (c.fwdMOrder = .dstMFirst ∨ r ≠ s.M.dstE) →
    v = (memOut c s).valM) ∧
  (r ≠ rnone → r ≠ (exeOut c s).dstE → r ≠ s.M.dstE → r ≠ s.M.dstM → r = s.W.dstM → v = s.W.valM) ∧
  (r ≠ rnone → r ≠ (exeOut c s).dstE → r ≠ s.M.dstE → r ≠ s.M.dstM → r ≠ s.W.dstM → r = s.W.dstE → v = s.W.valE) ∧
  (r ≠ rnone → r ≠ (exeOut c s).dstE → r ≠ s.M.dstE → r ≠ s.M.dstM → r ≠ s.W.dstM → r ≠ s.W.dstE →
    v = regRead s.regs r)

/-! ## Runs over a fixed program text (R231) -/

/-- The fetch of a machine whose program text is `code` and is not modified: case 3 of R231 left out. -/
def fetchText (c : Config) (code : Memory) : Memory → Word → FetchOut := fun _ pc => fetchStage c code pc

/-- Case 1 of R231 does not stand in this state: D is bubbled while a RETURN drains, or no RETURN enters the drain. -/
def DrainsNoReturn (c : Config) (s : State) : Prop := c.retDrainD = .bubble ∨ s.D.icode ≠ .ret

/-- Case 2 of R231 does not stand in this state: forwarding tries `dstM` of M first, or it is not so that a
`popq %rsp` is in M while the instruction in D reads `%rsp`. -/
def ForwardsNoPoppedStackPointer (c : Config) (s : State) : Prop :=
  c.fwdMOrder = .dstMFirst ∨
    ¬(s.M.icode = .popq ∧ s.M.dstM = c.rsp ∧
      (srcA c s.D.icode s.D.rA = c.rsp ∨ srcB c s.D.icode s.D.rB = c.rsp))

/-- `n` clock cycles over a fixed program text. -/
def runText (c : Config) (code : Memory) : Nat → State → Host.Outcome State Fault Refusal
  | 0, s => .next s
  | n + 1, s =>
    match clock c (fetchText c code) s with
    | .next t => runText c code n t
    | .fault r => .fault r
    | .refused r => .refused r

/-- One instruction of the sequential view over a fixed program text. -/
def seqStepText (c : Config) (code : Memory) (a : SeqState) : SeqOutcome :=
  match decode c (fetchBytes c code a.pc) with
  | .ok (i, _) => seqExec c i a
  | .error r => seqRejected c r a

/-- `n` instructions of the sequential view that complete, over a fixed program text; none when one raises. -/
def seqRunText (c : Config) (code : Memory) : Nat → SeqState → Option SeqState
  | 0, a => some a
  | n + 1, a =>
    match seqStepText c code a with
    | .next b => seqRunText c code n b
    | .raise _ => none

end Sys2Proof.Machine
end

