-- ==== Sys2Proof/Certificates/Slice0/Obligations.lean ====
section
/-! DEFINITION. The statements for the provers. `Config.machine` holds the parameters the machine takes (R5); a
statement over `c : Config` holds at every value of them. -/

open Sys2Proof Sys2Proof.Machine

/-! ## Encoding -/

/-- No bit of an encoding is dropped: under every numbering without repeats, every instruction, at every value of every
operand, is read back from its own bytes, and the bytes after it are left (R60 to R63, R66 to R69; the machine's
numbering, log 7's, is one). -/
def Obligations.DecodeOfEncodeIsTheInstruction : Prop :=
  ∀ (c : Config) (i : Instr) (rest : List Byte), c.numbersDistinct = true →
    decode c (encode c i ++ rest) = .ok (i, rest)

/-- Each instruction has one spelling: under every numbering, bytes that decode to `i` are `i`'s encoding, where they are
not cut short by the end of memory (R60 to R63, R71, R72; log 13). -/
def Obligations.DecodedBytesAreTheEncoding : Prop :=
  ∀ (c : Config) (bs : List Byte) (i : Instr) (rest : List Byte),
    decode c bs = .ok (i, rest) → (encode c i).length ≤ bs.length → encode c i ++ rest = bs

/-- Which bytes the decoder gives no instruction: a high nibble that numbers no class (R70), and, the model's choice
(log 12; log 25 for what it ignores), an OPQ, RRMOVQ or JUMP whose ifun numbers no function or relation. R71 has the
hardware accept these last with status OK, and the machine runs them (`RejectedBytesPass`). The numbers are log 7's. -/
def Obligations.BytesAreRejectedExactlyByName : Prop :=
  decode Config.machine [] = .error .noFirstByte ∧
  ∀ (b : Byte) (bs : List Byte),
    ((∃ ic fn, decode Config.machine (b :: bs) = .error (.illegalOpcode ic fn)) ↔ 0xC ≤ (hiNibble b).toNat) ∧
    ((∃ fn rA rB, decode Config.machine (b :: bs) = .error (.undefinedAluFunction fn rA rB)) ↔
      (hiNibble b).toNat = 0x6 ∧ 4 ≤ (loNibble b).toNat) ∧
    ((∃ fn rA rB, decode Config.machine (b :: bs) = .error (.undefinedMoveCondition fn rA rB)) ↔
      (hiNibble b).toNat = 0x2 ∧ 7 ≤ (loNibble b).toNat) ∧
    ((∃ fn dest, decode Config.machine (b :: bs) = .error (.undefinedJumpCondition fn dest)) ↔
      (hiNibble b).toNat = 0x7 ∧ 7 ≤ (loNibble b).toNat) ∧
    decode Config.machine (b :: bs) ≠ .error .noFirstByte

/-- Words written out from the encodings of R69 and the vectors of 95_test_vectors.md section 2.1 decode to the
instructions they stand for, one for each family. The numbers of classes and functions are log 7's (PRESUMED). -/
def Obligations.SpelledWordsDecode : Prop :=
  decode Config.machine [0x00] = .ok (.halt 0, []) ∧
  decode Config.machine [0x10] = .ok (.nop 0, []) ∧
  decode Config.machine [0x20, 0x12] = .ok (.rrmovq 1 2, []) ∧
  decode Config.machine [0x26, 0x3e] = .ok (.cmovg 3 0xE, []) ∧
  decode Config.machine [0x30, 0xf3, 0x88, 0x77, 0x66, 0x55, 0x44, 0x33, 0x22, 0x11] =
    .ok (.irmovq 0 0xF 3 0x1122334455667788, []) ∧
  decode Config.machine [0x40, 0x43, 0xf8, 0xff, 0xff, 0xff, 0xff, 0xff, 0xff, 0xff] = .ok (.rmmovq 0 4 3 (-8), []) ∧
  decode Config.machine [0x50, 0x15, 0x10, 0, 0, 0, 0, 0, 0, 0] = .ok (.mrmovq 0 1 5 0x10, []) ∧
  decode Config.machine [0x61, 0x23] = .ok (.subq 2 3, []) ∧
  decode Config.machine [0x74, 0x00, 0x02, 0, 0, 0, 0, 0, 0] = .ok (.jne 0x200, []) ∧
  decode Config.machine [0x80, 0x00, 0x03, 0, 0, 0, 0, 0, 0] = .ok (.call 0 0x300, []) ∧
  decode Config.machine [0x90] = .ok (.ret 0, []) ∧
  decode Config.machine [0xa0, 0x5f] = .ok (.pushq 0 5 0xF, []) ∧
  decode Config.machine [0xb0, 0x0f] = .ok (.popq 0 0 0xF, [])

/-! ## The step -/

/-- A step runs the instruction that the decoder reads at the fetch address, or the cycle of bytes that are none. -/
def Obligations.StepRunsTheDecodedInstruction : Prop :=
  ∀ s : State,
    (∀ i rest, decode Config.machine (bytesAtFetch s) = .ok (i, rest) → step s = exec i s) ∧
    (∀ r, decode Config.machine (bytesAtFetch s) = .error r → step s = execRejected r s)

/-- When the encoding of `i` stands in memory from the fetch address upward, as this cycle's store leaves it, the
step is `exec i` (R53, R60, R100 to R107; D16 is log 16's). Bytes of it beyond the end of memory count as 0 (D13, log
13). -/
def Obligations.StoredEncodingIsRun : Prop :=
  ∀ (s : State) (i : Instr), inBounds Config.machine (fetchPC s) = true →
    (∀ k, k < (encode Config.machine i).length →
      memByte Config.machine (memOut Config.machine s).mem (fetchPC s + BitVec.ofNat 64 k) = (encode Config.machine i).getD k 0) →
    step s = exec i s

/-- The step, which goes through the decoder and the 27 meanings, is the clock cycle of the stage rules, which reads
the bytes itself: R91's cycle function, for every state and every memory content (R91, R101 to R108, R112). -/
def Obligations.StepIsTheClockCycleOfTheStageRules : Prop :=
  ∀ s : State, step s = cycle Config.machine s

/-- A word placed under the fetch is what the next step runs, in a machine that is then running (log 27 is the model's
convention). The premise is a clause of `Legal`. -/
def Obligations.PlacedInstructionIsRun : Prop :=
  ∀ (s : State) (nbits w : Nat) (i : Instr), Memory.wf Config.machine.memSize s.mem →
    decodeTableWord nbits w = some i →
    (s.withFetchWord nbits w).stopped = false ∧
    step (s.withFetchWord nbits w) = exec i (s.withFetchWord nbits w)

/-- A machine has a next state, under every instruction, exactly while it is not stopped (R25, R92; that a stopped
machine answers a fault is log 20's). No instruction is refused. -/
def Obligations.MachineRunsExactlyUntilStopped : Prop :=
  ∀ s : State,
    (s.stopped = false → (∃ t, step s = .next t) ∧ ∀ i, ∃ t, exec i s = .next t) ∧
    (s.stopped = true → step s = .fault .machineStopped ∧ ∀ i, exec i s = .fault .machineStopped)

/-! ## Reset and the invariant -/

/-- Reset: nothing in flight, fetching from 0, every register, flag and byte 0 (R28, the spec's decision D6; the
model's values of log 9, 10, 11). -/
def Obligations.ResetHoldsTheNamedValues : Prop :=
  Ready State.reset ∧ State.reset.exitStatus = none ∧ fetchPC State.reset = 0 ∧
  State.reset.D = .bubble ∧ State.reset.E = .bubble ∧ State.reset.M = .bubble ∧ State.reset.W = .neutral ∧
  (∀ r : RegId, r ≠ rnone → regRead State.reset.regs r = 0) ∧
  State.reset.flags = ⟨false, false, false⟩ ∧
  ∀ a, State.reset.mem.get a = 0

/-- The invariant holds at reset. -/
def Obligations.ResetIsLegal : Prop := ∀ c : Config, Legal c State.reset

/-- Every clock cycle, from every legal state and under every instruction or byte, keeps the invariant: the memory's
canonical form, a status that fits its class (R103, R175), destinations that fit their class (R123, R124, R152), a
bubble in M behind an abnormal W (R93, R196), an exit status of a stopped machine that is not OK (R25, R266). -/
def Obligations.EveryStepKeepsLegal : Prop :=
  (∀ (c : Config) (s t : State), Legal c s → cycle c s = .next t → Legal c t) ∧
  (∀ s t : State, Legal Config.machine s → step s = .next t → Legal Config.machine t) ∧
  (∀ (i : Instr) (s t : State), Legal Config.machine s → exec i s = .next t → Legal Config.machine t)

/-! ## Fetch -/

/-- The fetch address: the mispredicted jump in M, then the RETURN in W, then the prediction (R100). -/
def Obligations.FetchAddressPriority : Prop :=
  ∀ s : State,
    (s.M.icode = .jxx ∧ s.M.cnd = false → fetchPC s = s.M.valA) ∧
    (¬(s.M.icode = .jxx ∧ s.M.cnd = false) → s.W.icode = .ret → fetchPC s = s.W.valM) ∧
    (¬(s.M.icode = .jxx ∧ s.M.cnd = false) → s.W.icode ≠ .ret → fetchPC s = s.F.predPC)

/-- The status of what is fetched: address error before invalid instruction before halt (R103). The class is that of the
byte in the memory of the next state, which holds this cycle's store: the spec's decision D16 (log 16). -/
def Obligations.FetchedStatusPriority : Prop :=
  ∀ s t : State, step s = .next t → dCtlNow Config.machine s = .normal →
    let ic := Icode.ofNibble Config.machine (hiNibble (t.mem.get (fetchPC s).toNat))
    (Config.machine.memSize ≤ (fetchPC s).toNat → t.D.stat = .adr ∧ t.D.icode = .nop) ∧
    ((fetchPC s).toNat < Config.machine.memSize → ic.legal = false → t.D.stat = .ins ∧ t.D.icode = ic) ∧
    ((fetchPC s).toNat < Config.machine.memSize → ic = .halt → t.D.stat = .hlt ∧ t.D.icode = .halt) ∧
    ((fetchPC s).toNat < Config.machine.memSize → ic.legal = true → ic ≠ .halt → t.D.stat = .aok ∧ t.D.icode = ic)

/-- The fall-through address is the address after the instruction's bytes, and the prediction is the constant of a
jump or call, else the fall-through address (R105, R108). -/
def Obligations.FallThroughAndPrediction : Prop :=
  ∀ (i : Instr) (s t : State), exec i s = .next t →
    (dCtlNow Config.machine s = .normal → t.D.valP = fetchPC s + BitVec.ofNat 64 (encode Config.machine i).length) ∧
    (fCtlNow Config.machine s = .normal →
      t.F.predPC = (constantTarget i).getD (fetchPC s + BitVec.ofNat 64 (encode Config.machine i).length))

/-- The fetch of a cycle reads the memory with that cycle's store in it: the record that enters D is the one of the
memory after the step (R53, R91; the model's and the spec's decision D16, log 16). -/
def Obligations.FetchSeesThisCyclesStore : Prop :=
  ∀ s t : State, step s = .next t → dCtlNow Config.machine s = .normal →
    t.D = pendingD (fetchStage Config.machine t.mem (fetchPC s))

/-! ## Decode and forwarding -/

/-- The source and destination ids of every class, as they enter E (R121 to R124, R130). -/
def Obligations.DecodedIdsOfEveryClass : Prop :=
  ∀ s t : State, step s = .next t → eCtlNow Config.machine s = .normal →
    (t.E.srcA, t.E.srcB, t.E.dstE, t.E.dstM) =
      match s.D.icode with
      | .rrmovq => (s.D.rA, rnone, s.D.rB, rnone)
      | .irmovq => (rnone, rnone, s.D.rB, rnone)
      | .rmmovq => (s.D.rA, s.D.rB, rnone, rnone)
      | .mrmovq => (rnone, s.D.rB, rnone, s.D.rA)
      | .opq => (s.D.rA, s.D.rB, s.D.rB, rnone)
      | .call => (rnone, Config.machine.rsp, Config.machine.rsp, rnone)
      | .ret => (Config.machine.rsp, Config.machine.rsp, Config.machine.rsp, rnone)
      | .pushq => (s.D.rA, Config.machine.rsp, Config.machine.rsp, rnone)
      | .popq => (Config.machine.rsp, Config.machine.rsp, Config.machine.rsp, s.D.rA)
      | .halt | .nop | .jxx | .illegal _ => (rnone, rnone, rnone, rnone)

/-- The operands that enter E: for CALL and JUMP operand A is the fall-through address; every other operand is the
first match of the forwarding chain, under either order of M's destinations (R125, R126, R127). -/
def Obligations.OperandsComeFromTheFirstMatch : Prop :=
  ∀ (c : Config) (s t : State), cycle c s = .next t → eCtlNow c s = .normal →
    (s.D.icode = .call ∨ s.D.icode = .jxx → t.E.valA = s.D.valP) ∧
    (s.D.icode ≠ .call → s.D.icode ≠ .jxx → ResolvesTo c s t.E.srcA t.E.valA) ∧
    ResolvesTo c s t.E.srcB t.E.valB

/-- "Most recently produced value wins": forwarding gives what the register would hold after the writes in flight in
W, M and E were made in program order, except that with `dstE_first` M's two destinations must not
be one register (R125, R132). -/
def Obligations.ForwardingGivesTheNewestValue : Prop :=
  ∀ (c : Config) (f : Forwards) (x : Regs) (r : RegId), r ≠ rnone →
    (c.fwdMOrder = .dstMFirst ∨ f.mE.id ≠ f.mM.id ∨ f.mE.id = rnone) →
    let afterW := regWrite (regWrite x f.wE.id f.wE.value) f.wM.id f.wM.value
    let afterM := regWrite (regWrite afterW f.mE.id f.mE.value) f.mM.id f.mM.value
    fwd c f x r = regRead (regWrite afterM f.e.id f.e.value) r

/-- Where in the cycle Writeback's register write stands cannot be observed by Decode (R93, item 1). -/
def Obligations.WritebackPlacementIsUnobservable : Prop :=
  ∀ (c : Config) (s : State) (f : Forwards), f.wE = ⟨s.W.dstE, s.W.valE⟩ → f.wM = ⟨s.W.dstM, s.W.valM⟩ →
    decodeStage c (commit s.W s.regs) f s.D = decodeStage c s.regs f s.D

/-- `E_srcA` and `E_srcB` are read by no rule (R20): a step does not depend on them. -/
def Obligations.SourceIdsInEAreReadByNoRule : Prop :=
  ∀ (s : State) (a b : RegId), step { s with E := { s.E with srcA := a, srcB := b } } = step s

/-! ## The register file -/

/-- The register file: each of the 15 registers reads what was last written to it, a write changes no other, and a
write to the sentinel changes nothing (R11). -/
def Obligations.RegisterFileContract : Prop :=
  ∀ (x : Regs) (r q : RegId) (v : Word),
    (r ≠ rnone → regRead (regWrite x r v) r = v) ∧
    (q ≠ r → regRead (regWrite x r v) q = regRead x q) ∧
    regWrite x rnone v = x

/-! ## Execute -/

/-- The ALU result of every class, as it enters M (R144, R146; the 0 of an undefined function is D14's, log 12). -/
def Obligations.AluResultOfEveryClass : Prop :=
  ∀ s t : State, step s = .next t → mCtlNow Config.machine s = .normal →
    t.M.valE =
      match s.E.icode with
      | .rrmovq => s.E.valA
      | .irmovq => s.E.valC
      | .rmmovq | .mrmovq => s.E.valB + s.E.valC
      | .opq =>
        match AluFn.ofIfun Config.machine s.E.ifun with
        | some .add => s.E.valB + s.E.valA
        | some .sub => s.E.valB - s.E.valA
        | some .and => s.E.valB &&& s.E.valA
        | some .xor => s.E.valB ^^^ s.E.valA
        | none => 0
      | .call | .pushq => s.E.valB - 8
      | .ret | .popq => s.E.valB + 8
      | .halt | .nop | .jxx | .illegal _ => 0

/-- The overflow functions say that the signed sum or difference is outside the 64-bit range (R155; log 24). -/
def Obligations.OverflowIsSignedRangeOverflow : Prop :=
  ∀ a b : Word,
    (addOverflow a b (b + a) = true ↔ b.toInt + a.toInt < -2 ^ 63 ∨ 2 ^ 63 ≤ b.toInt + a.toInt) ∧
    (subOverflow a b (b - a) = true ↔ b.toInt - a.toInt < -2 ^ 63 ∨ 2 ^ 63 ≤ b.toInt - a.toInt)

/-- After `subq rA, rB` the relations compare the old `x[rB]` with the old `x[rA]` as signed numbers (R223, R150;
log 24). Under every numbering without repeats. -/
def Obligations.RelationsCompareSignedAfterSubtraction : Prop :=
  ∀ (c : Config) (a b : Word) (old : Flags), c.numbersDistinct = true →
    let f := aluFlags c (AluFn.sub.ifun c) a b (b - a) old
    condHolds .always f = true ∧
    condHolds .le f = decide (b.toInt ≤ a.toInt) ∧
    condHolds .l f = decide (b.toInt < a.toInt) ∧
    condHolds .e f = decide (b = a) ∧
    condHolds .ne f = decide (b ≠ a) ∧
    condHolds .ge f = decide (a.toInt ≤ b.toInt) ∧
    condHolds .g f = decide (a.toInt < b.toInt)

/-- The flags are written by an OPQ in Execute with no abnormal status in the Memory stage or in W, and by nothing
else: every other cycle leaves all three as they were (R16, R153). -/
def Obligations.FlagsAreWrittenOnlyByAnUnprotectedOpq : Prop :=
  ∀ (c : Config) (s t : State), cycle c s = .next t →
    (s.E.icode = .opq ∧ (memOut c s).stat = .aok ∧ s.W.stat = .aok →
      t.flags = aluFlags c s.E.ifun s.E.valA s.E.valB (alu c s.E.ifun s.E.valA s.E.valB) s.flags) ∧
    (¬(s.E.icode = .opq ∧ (memOut c s).stat = .aok ∧ s.W.stat = .aok) → t.flags = s.flags)

/-- The condition enters M for a jump or a move only, and a move whose condition is false loses its destination
(R151, R152). -/
def Obligations.ConditionCancelsTheMove : Prop :=
  ∀ s t : State, step s = .next t → mCtlNow Config.machine s = .normal →
    (s.E.icode = .jxx ∨ s.E.icode = .rrmovq → t.M.cnd = cond Config.machine s.E.ifun s.flags) ∧
    (s.E.icode ≠ .jxx → s.E.icode ≠ .rrmovq → t.M.cnd = false) ∧
    (s.E.icode = .rrmovq → cond Config.machine s.E.ifun s.flags = false → t.M.dstE = rnone) ∧
    (¬(s.E.icode = .rrmovq ∧ cond Config.machine s.E.ifun s.flags = false) → t.M.dstE = s.E.dstE)

/-! ## Memory -/

/-- In a cycle the memory changes only by the admitted store of the instruction in M, at the address of R170: every
byte outside its eight reads as before, and its byte `i` is byte `i` of the data (R170, R171, R174; log 14, 15). The
premise on the memory is a clause of `Legal`. -/
def Obligations.MemoryChangesOnlyByTheStoreInM : Prop :=
  ∀ s t : State, Memory.wf Config.machine.memSize s.mem → step s = .next t →
    (¬(writesMem s.M.icode = true ∧ admitted Config.machine (memAddr s.M) = true) → t.mem = s.mem) ∧
    (writesMem s.M.icode = true ∧ admitted Config.machine (memAddr s.M) = true →
      (∀ k, k < (memAddr s.M).toNat ∨ (memAddr s.M).toNat + 8 ≤ k → t.mem.get k = s.mem.get k) ∧
      (∀ i, i < 8 → t.mem.get ((memAddr s.M).toNat + i) = byteAt s.M.valA i))

/-- A load brings the eight bytes of its address to W, least significant first: `valE` is the address of MRMOVQ, `valA`
that of POPQ and RETURN. A load that is not admitted brings 0, and so does every other class (R170, R171, R173). The
byte order is D12's (log 15), the zero of a refused load D15's (log 14). -/
def Obligations.LoadBringsItsBytesToW : Prop :=
  ∀ s t : State, step s = .next t →
    (s.M.icode = .mrmovq → admitted Config.machine s.M.valE = true →
      ∀ i, i < 8 → byteAt t.W.valM i = s.mem.get (s.M.valE.toNat + i)) ∧
    (s.M.icode = .popq ∨ s.M.icode = .ret → admitted Config.machine s.M.valA = true →
      ∀ i, i < 8 → byteAt t.W.valM i = s.mem.get (s.M.valA.toNat + i)) ∧
    (readsMem s.M.icode = true → admitted Config.machine (memAddr s.M) = false → t.W.valM = 0) ∧
    (s.M.icode ≠ .mrmovq → s.M.icode ≠ .popq → s.M.icode ≠ .ret → t.W.valM = 0)

/-- The memory contract: a load after a store to the same address gives the value stored, a store leaves every
disjoint load alone, and a byte fetch sees byte `i` of the stored value (R41, R43, R44; log 15). -/
def Obligations.MemoryContract : Prop :=
  ∀ (c : Config) (m : Memory) (a v : Word), Memory.wf c.memSize m → c.memSize ≤ 2 ^ 64 → admitted c a = true →
    memRead8 c (memWrite8 c m a v) a = v ∧
    (∀ b : Word, b.toNat + 8 ≤ a.toNat ∨ a.toNat + 8 ≤ b.toNat →
      memRead8 c (memWrite8 c m a v) b = memRead8 c m b) ∧
    (∀ i, i < 8 → memByte c (memWrite8 c m a v) (a + BitVec.ofNat 64 i) = byteAt v i)

/-- An access that is not admitted makes its instruction an address error on the way to W, changes no byte and no
flag, and keeps what is behind it out of M (R172, R174, R175, R196, R261). That a refused store changes no byte is the
spec's decision D15 (log 14). -/
def Obligations.UnadmittedAccessIsAnAddressError : Prop :=
  ∀ s t : State, step s = .next t → (readsMem s.M.icode = true ∨ writesMem s.M.icode = true) →
    admitted Config.machine (memAddr s.M) = false →
    t.W.stat = .adr ∧ t.W.icode = s.M.icode ∧ t.mem = s.mem ∧ t.flags = s.flags ∧ t.M = .bubble

/-! ## Writeback and the stop -/

/-- Writeback commits `valE` to `dstE`, then `valM` to `dstM`, or on an abnormal status or a HALT stops the machine with
that status and writes no register (R180, R181, R183, R266). That `valE` is first, so that `valM` stays, is the spec's
decision D19 (R182, log 18); the explicit `stopped` and `exitStatus` are D7's (log 20). -/
def Obligations.WritebackCommitsOrStops : Prop :=
  ∀ s t : State, step s = .next t →
    (s.W.stat ≠ .aok ∨ s.W.icode = .halt →
      t.regs = s.regs ∧ t.stopped = true ∧ t.exitStatus = some s.W.stat) ∧
    (s.W.stat = .aok → s.W.icode ≠ .halt →
      t.regs = regWrite (regWrite s.regs s.W.dstE s.W.valE) s.W.dstM s.W.valM ∧
      (∀ r, r ≠ s.W.dstE → r ≠ s.W.dstM → regRead t.regs r = regRead s.regs r) ∧
      t.stopped = false ∧ t.exitStatus = s.exitStatus)

/-- In the stop cycle nothing architectural changes: no register, no flag, no byte (R93, item 2). -/
def Obligations.StopCycleChangesNothingArchitectural : Prop :=
  ∀ s t : State, Legal Config.machine s → step s = .next t → s.W.stat ≠ .aok →
    t.stopped = true ∧ t.exitStatus = some s.W.stat ∧ t.regs = s.regs ∧ t.flags = s.flags ∧ t.mem = s.mem

/-- Protection of the state behind a fault or halt: when the status in the Memory stage is abnormal, the instruction in W
commits, the next cycle is the stop cycle, the machine stops with that status, and neither that instruction nor a
younger one has changed a register, a flag or a byte (R265, R266, R268). That a refused store changes no byte is the
spec's decision D15 (log 14). -/
def Obligations.NothingBehindAFaultTakesEffect : Prop :=
  ∀ s : State, Legal Config.machine s → s.stopped = false → s.W.stat = .aok →
    (memOut Config.machine s).stat ≠ .aok →
    ∃ t u, step s = .next t ∧ step t = .next u ∧
      t.stopped = false ∧ t.regs = commit s.W s.regs ∧ t.flags = s.flags ∧ t.mem = s.mem ∧
      u.stopped = true ∧ u.exitStatus = some (memOut Config.machine s).stat ∧
      u.regs = t.regs ∧ u.flags = s.flags ∧ u.mem = s.mem ∧
      step u = .fault .machineStopped

/-! ## Hazards -/

/-- The five pipeline registers at the high phase, from the three hazard conditions and the two statuses, at every value
of the parameters (R191 to R197; R190's equality with the sentinel is D20's, log 19). -/
def Obligations.RegistersObeyTheHazardUnit : Prop :=
  ∀ (c : Config) (s t : State), cycle c s = .next t →
    let loaduse := (s.E.icode = .mrmovq ∨ s.E.icode = .popq) ∧
      (s.E.dstM = srcA c s.D.icode s.D.rA ∨ s.E.dstM = srcB c s.D.icode s.D.rB)
    let retdrain := s.D.icode = .ret ∨ s.E.icode = .ret ∨ s.M.icode = .ret
    let mispred := s.E.icode = .jxx ∧ cond c s.E.ifun s.flags = false
    let fetched := fetchStage c (memOut c s).mem (fetchPC s)
    (loaduse ∨ retdrain → t.F = s.F) ∧
    (¬loaduse → ¬retdrain → t.F.predPC = fetched.predPC) ∧
    (loaduse → t.D = s.D) ∧
    (¬loaduse → retdrain → t.D = match c.retDrainD with | .normal => pendingD fetched | .bubble => DReg.bubble) ∧
    (¬loaduse → ¬retdrain → mispred → t.D = .bubble) ∧
    (¬loaduse → ¬retdrain → ¬mispred → t.D = pendingD fetched) ∧
    (loaduse ∨ mispred → t.E = .bubble) ∧
    (¬loaduse → ¬mispred → t.E = pendingE s.D (decOut c s)) ∧
    ((memOut c s).stat ≠ .aok ∨ s.W.stat ≠ .aok → t.M = .bubble) ∧
    ((memOut c s).stat = .aok → s.W.stat = .aok → t.M = pendingM s.E (exeOut c s)) ∧
    t.W = pendingW s.M (memOut c s)

/-- A load-use hazard costs exactly one cycle: F and D hold, E takes a bubble, the hazard is gone in the next cycle, and
an operand that names the loaded register then receives the loaded value (R199). The premise on `dstE` leaves out
`popq %rsp`, whose forwarding from M is C4's (R132). -/
def Obligations.LoadUseCostsOneCycle : Prop :=
  ∀ s t : State, step s = .next t → loadUseNow Config.machine s = true → mCtlNow Config.machine s = .normal →
    t.F = s.F ∧ t.D = s.D ∧ t.E = .bubble ∧ loadUseNow Config.machine t = false ∧
    (s.E.dstM ≠ rnone → s.E.dstM ≠ s.E.dstE → (decOut Config.machine t).srcA = s.E.dstM →
      (decOut Config.machine t).valA = (memOut Config.machine t).valM) ∧
    (s.E.dstM ≠ rnone → s.E.dstM ≠ s.E.dstE → (decOut Config.machine t).srcB = s.E.dstM →
      (decOut Config.machine t).valB = (memOut Config.machine t).valM)

/-- While a RETURN is in D, E or M, F is stalled; when it is in W, Fetch takes its loaded address, unless a mispredicted
jump is in M (R191, R193, R100). -/
def Obligations.ReturnDrainStallsFetch : Prop :=
  (∀ s t : State, step s = .next t → s.D.icode = .ret ∨ s.E.icode = .ret ∨ s.M.icode = .ret → t.F = s.F) ∧
  (∀ s : State, s.W.icode = .ret → ¬(s.M.icode = .jxx ∧ s.M.cnd = false) → fetchPC s = s.W.valM)

/-- A conditional jump found false in Execute squashes the instruction in D and, unless a RETURN drains, the one being
fetched, and Fetch resumes at the jump's fall-through address in the next cycle (R192, R195, R201). -/
def Obligations.MispredictedJumpIsSquashed : Prop :=
  ∀ s t : State, step s = .next t → s.E.icode = .jxx → cond Config.machine s.E.ifun s.flags = false →
    (memOut Config.machine s).stat = .aok → s.W.stat = .aok →
    t.E = .bubble ∧ fetchPC t = s.E.valA ∧ t.M.icode = .jxx ∧ t.M.cnd = false ∧
    (s.D.icode ≠ .ret → s.M.icode ≠ .ret → t.D = .bubble)

/-- With the default `RET_DRAIN_D = normal` the instruction that stands after a `ret` is in D in each of the three cycles
that follow the one in which the `ret` is in D (R200, conflict C3; the parameter is log 2's). When it is a load that
meets the load-use test against its own copy, D is stalled into the last of them, so that two copies enter (R194, R198). -/
def Obligations.InstructionAfterRetIsInDForThreeCycles : Prop :=
  ∀ (s : State) (fn : Nibble), Ready s →
    ∃ t1 t2 t3 t4 t5, Passage (exec (.ret fn) s) t1 t2 t3 t4 t5 ∧
      t2.D = pendingD (fetchStage Config.machine s.mem (fetchPC s + 1)) ∧
      t3.D = pendingD (fetchStage Config.machine s.mem (fetchPC s + 1)) ∧
      t4.D = pendingD (fetchStage Config.machine s.mem (fetchPC s + 1))

/-! ## What each instruction completes with, from every state with nothing in flight, whatever follows it in memory -/

/-- `halt` stops the machine with status SHLT and changes nothing (R210). Every ifun. -/
def Obligations.HaltStopsWithShlt : Prop := ∀ (s : State) (fn : Nibble), Ready s → Raises (.halt fn) s .hlt

/-- `nop` (R211). Every ifun. -/
def Obligations.NopCompletes : Prop :=
  ∀ (s : State) (fn : Nibble), Ready s → Completes (.nop fn) s ⟨s.regs, s.flags, s.mem, fetchPC s + 1⟩ 0

/-- `rrmovq` and the six conditional moves: `x[rB]` takes `x[rA]` when the condition holds of the flags; nothing else
changes (R212 to R218). Every pair of ids: the source RNONE moves 0, the destination RNONE writes nothing. -/
def Obligations.MovesComplete : Prop :=
  ∀ (s : State) (rA rB : RegId), Ready s →
    let moved : Bool → SeqState := fun b =>
      ⟨if b then regWrite s.regs rB (operand s.regs rA) else s.regs, s.flags, s.mem, fetchPC s + 2⟩
    Completes (.rrmovq rA rB) s (moved true) 0 ∧
    Completes (.cmovle rA rB) s (moved ((s.flags.sf ^^ s.flags.of) || s.flags.zf)) 0 ∧
    Completes (.cmovl rA rB) s (moved (s.flags.sf ^^ s.flags.of)) 0 ∧
    Completes (.cmove rA rB) s (moved s.flags.zf) 0 ∧
    Completes (.cmovne rA rB) s (moved (!s.flags.zf)) 0 ∧
    Completes (.cmovge rA rB) s (moved (!(s.flags.sf ^^ s.flags.of))) 0 ∧
    Completes (.cmovg rA rB) s (moved (!(s.flags.sf ^^ s.flags.of) && !s.flags.zf)) 0

/-- `irmovq`: `x[rB]` takes the constant; nothing else changes (R219). Every ifun and ignored nibble. -/
def Obligations.IrmovqCompletes : Prop :=
  ∀ (s : State) (fn : Nibble) (rA rB : RegId) (v : Word), Ready s →
    Completes (.irmovq fn rA rB v) s ⟨regWrite s.regs rB v, s.flags, s.mem, fetchPC s + 10⟩ 0

/-- `rmmovq`: stores `x[rA]` at `x[rB] + D`, or raises SADR (R220). -/
def Obligations.RmmovqCompletesOrRaises : Prop :=
  ∀ (s : State) (fn : Nibble) (rA rB : RegId) (d : Word), Ready s →
    let addr := operand s.regs rB + d
    (admitted Config.machine addr = true →
      Completes (.rmmovq fn rA rB d) s
        ⟨s.regs, s.flags, memWrite8 Config.machine s.mem addr (operand s.regs rA), fetchPC s + 10⟩ 0) ∧
    (admitted Config.machine addr = false → Raises (.rmmovq fn rA rB d) s .adr)

/-- `mrmovq`: loads `x[rA]` from `x[rB] + D`, or raises SADR (R221). -/
def Obligations.MrmovqCompletesOrRaises : Prop :=
  ∀ (s : State) (fn : Nibble) (rA rB : RegId) (d : Word), Ready s →
    let addr := operand s.regs rB + d
    (admitted Config.machine addr = true →
      Completes (.mrmovq fn rA rB d) s
        ⟨regWrite s.regs rA (memRead8 Config.machine s.mem addr), s.flags, s.mem, fetchPC s + 10⟩ 0) ∧
    (admitted Config.machine addr = false → Raises (.mrmovq fn rA rB d) s .adr)

/-- The ALU operations, with their flags: OF of add and sub is the signed overflow, of and and xor it stays (R222 to
R225; `OF_LOGIC = unchanged` is log 4's). -/
def Obligations.AluOperationsComplete : Prop :=
  ∀ (s : State) (rA rB : RegId), Ready s →
    let a := operand s.regs rA
    let b := operand s.regs rB
    let result : Word → Bool → SeqState := fun r o =>
      ⟨regWrite s.regs rB r, ⟨decide (r = 0), r.msb, o⟩, s.mem, fetchPC s + 2⟩
    Completes (.addq rA rB) s
      (result (b + a) (decide (b.toInt + a.toInt < -2 ^ 63 ∨ 2 ^ 63 ≤ b.toInt + a.toInt))) 0 ∧
    Completes (.subq rA rB) s
      (result (b - a) (decide (b.toInt - a.toInt < -2 ^ 63 ∨ 2 ^ 63 ≤ b.toInt - a.toInt))) 0 ∧
    Completes (.andq rA rB) s (result (b &&& a) s.flags.of) 0 ∧
    Completes (.xorq rA rB) s (result (b ^^^ a) s.flags.of) 0

/-- The jumps: the next address is the constant when the relation holds of the flags, with no lost cycle, else the
fall-through address, two cycles later; nothing else changes (R240 to R246, R287). -/
def Obligations.JumpsComplete : Prop :=
  ∀ (s : State) (dest : Word), Ready s →
    let goTo : Bool → SeqState := fun taken => ⟨s.regs, s.flags, s.mem, if taken then dest else fetchPC s + 9⟩
    let lost : Bool → Nat := fun taken => if taken then 0 else 2
    let le := (s.flags.sf ^^ s.flags.of) || s.flags.zf
    let l := s.flags.sf ^^ s.flags.of
    Completes (.jmp dest) s (goTo true) 0 ∧
    Completes (.jle dest) s (goTo le) (lost le) ∧
    Completes (.jl dest) s (goTo l) (lost l) ∧
    Completes (.je dest) s (goTo s.flags.zf) (lost s.flags.zf) ∧
    Completes (.jne dest) s (goTo (!s.flags.zf)) (lost (!s.flags.zf)) ∧
    Completes (.jge dest) s (goTo (!l)) (lost (!l)) ∧
    Completes (.jg dest) s (goTo (!le)) (lost (!le))

/-- `call`: stores the return address at `x[RSP] - 8`, which becomes `x[RSP]`, and goes to the constant, or raises SADR
with neither changed (R247). -/
def Obligations.CallCompletesOrRaises : Prop :=
  ∀ (s : State) (fn : Nibble) (dest : Word), Ready s →
    let addr := regRead s.regs Config.machine.rsp - 8
    (admitted Config.machine addr = true →
      Completes (.call fn dest) s
        ⟨regWrite s.regs Config.machine.rsp addr, s.flags,
          memWrite8 Config.machine s.mem addr (fetchPC s + 9), dest⟩ 0) ∧
    (admitted Config.machine addr = false → Raises (.call fn dest) s .adr)

/-- `ret`: adds 8 to `x[RSP]` and goes, after three lost cycles, to the address it loads from the old `x[RSP]`, or raises
SADR (R248). The first clause of its next address is in `CompletesFrom`. -/
def Obligations.RetCompletesOrRaises : Prop :=
  ∀ (s : State) (fn : Nibble), Ready s →
    let addr := regRead s.regs Config.machine.rsp
    (admitted Config.machine addr = true →
      Completes (.ret fn) s
        ⟨regWrite s.regs Config.machine.rsp (addr + 8), s.flags, s.mem, memRead8 Config.machine s.mem addr⟩ 3) ∧
    (admitted Config.machine addr = false → Raises (.ret fn) s .adr)

/-- `pushq`: stores `x[rA]`, for `%rsp` its old value, at `x[RSP] - 8`, which becomes `x[RSP]`, or raises SADR with
neither changed (R249). -/
def Obligations.PushqCompletesOrRaises : Prop :=
  ∀ (s : State) (fn : Nibble) (rA rB : RegId), Ready s →
    let addr := regRead s.regs Config.machine.rsp - 8
    (admitted Config.machine addr = true →
      Completes (.pushq fn rA rB) s
        ⟨regWrite s.regs Config.machine.rsp addr, s.flags,
          memWrite8 Config.machine s.mem addr (operand s.regs rA), fetchPC s + 2⟩ 0) ∧
    (admitted Config.machine addr = false → Raises (.pushq fn rA rB) s .adr)

/-- `popq`: adds 8 to `x[RSP]`, then writes `x[rA]` with what it loads from the old `x[RSP]`, which for `%rsp` is what
stays, or raises SADR with nothing written (R250, R182; D19 is log 18's). -/
def Obligations.PopqCompletesOrRaises : Prop :=
  ∀ (s : State) (fn : Nibble) (rA rB : RegId), Ready s →
    let addr := regRead s.regs Config.machine.rsp
    (admitted Config.machine addr = true →
      Completes (.popq fn rA rB) s
        ⟨regWrite (regWrite s.regs Config.machine.rsp (addr + 8)) rA (memRead8 Config.machine s.mem addr),
          s.flags, s.mem, fetchPC s + 2⟩ 0) ∧
    (admitted Config.machine addr = false → Raises (.popq fn rA rB) s .adr)

/-- The frame of the three storing forms, byte by byte: the eight bytes at the computed address are those of the data,
least significant first, every other byte reads as before, no flag changes, and no register but, for `pushq` and `call`,
the stack pointer (R220, R247, R249; log 15). -/
def Obligations.StoringFormsWriteExactlyEightBytes : Prop :=
  ∀ (s : State) (i : Instr) (addr v : Word), Ready s → Memory.wf Config.machine.memSize s.mem →
    ((∃ fn rA rB d, i = .rmmovq fn rA rB d ∧ addr = operand s.regs rB + d ∧ v = operand s.regs rA) ∨
      (∃ fn rA rB, i = .pushq fn rA rB ∧ addr = regRead s.regs Config.machine.rsp - 8 ∧ v = operand s.regs rA) ∨
      (∃ fn dest, i = .call fn dest ∧ addr = regRead s.regs Config.machine.rsp - 8 ∧ v = fetchPC s + 9)) →
    admitted Config.machine addr = true →
    ∃ t1 t2 t3 t4 t5, Passage (exec i s) t1 t2 t3 t4 t5 ∧
      (∀ k, k < addr.toNat ∨ addr.toNat + 8 ≤ k → t4.mem.get k = s.mem.get k) ∧
      (∀ k, k < 8 → t4.mem.get (addr.toNat + k) = byteAt v k) ∧
      t3.flags = s.flags ∧
      (∀ r, r ≠ Config.machine.rsp → regRead t5.regs r = regRead s.regs r) ∧
      ((∃ fn rA rB d, i = .rmmovq fn rA rB d) → t5.regs = s.regs)

/-- The pipeline brings about, for every instruction and from every state with nothing in flight, exactly the net effect
the sequential view gives it: each part in its cycle, nothing else before it, the next fetch at the sequential next
address after the cycles R287 counts, or the stop with its status (R230, R231, R210 to R225, R240 to R250). The
sequential view is the spec's derived description (log 29). -/
def Obligations.PipelineRealisesTheNetEffect : Prop :=
  ∀ (i : Instr) (s : State), Ready s →
    match seqExec Config.machine i (seqOf s) with
    | .next a => Completes i s a (lostCycles i s.flags)
    | .raise status => Raises i s status

/-- Bytes that are none of the 27 instructions pass through the pipeline too: out of bounds and an illegal class stop the
machine with SADR and SINS; an undefined function gives 0 and its flags, an undefined relation is false (R70, R71,
R261, R262; D14 is log 12's). -/
def Obligations.RejectedBytesPass : Prop :=
  ∀ s : State, Ready s →
    RaisesFrom (execRejected .noFirstByte s) s .adr ∧
    (∀ ic fn, ic.legal = false → RaisesFrom (execRejected (.illegalOpcode ic fn) s) s .ins) ∧
    (∀ fn rA rB, AluFn.ofIfun Config.machine fn = none →
      CompletesFrom (execRejected (.undefinedAluFunction fn rA rB) s) s
        ⟨regWrite s.regs rB 0, ⟨true, false, s.flags.of⟩, s.mem, fetchPC s + 2⟩ 0) ∧
    (∀ fn rA rB, Cond.ofIfun Config.machine fn = none →
      CompletesFrom (execRejected (.undefinedMoveCondition fn rA rB) s) s
        ⟨s.regs, s.flags, s.mem, fetchPC s + 2⟩ 0) ∧
    (∀ fn dest, Cond.ofIfun Config.machine fn = none →
      CompletesFrom (execRejected (.undefinedJumpCondition fn dest) s) s
        ⟨s.regs, s.flags, s.mem, fetchPC s + 9⟩ 2)

/-- The source's goal, "results identical to a non-pipelined reference execution", at every value of the parameters,
the machine's among them, outside the three cases of R231: in no cycle of the run does case 1 or case 2 stand
(`DrainsNoReturn`, `ForwardsNoPoppedStackPointer`: each holds in every state at the alternative value of its parameter),
and the program text is not modified (case 3). A pipeline that stops has then done, instruction by instruction, what the
sequential view does: same registers, flags, memory and exit status (R231; the view is log 29's). -/
def Obligations.PipelineMeetsSequentialExecution : Prop :=
  ∀ (c : Config) (code m : Memory) (x : Regs) (f : Flags) (n : Nat) (t : State),
    let start := { State.reset with regs := x, flags := f, mem := m }
    (∀ (k : Nat) (u : State), k < n → runText c code k start = .next u →
      DrainsNoReturn c u ∧ ForwardsNoPoppedStackPointer c u) →
    runText c code n start = .next t → t.stopped = true →
    ∃ (k : Nat) (a : SeqState) (status : Stat),
      seqRunText c code k ⟨x, f, m, 0⟩ = some a ∧ seqStepText c code a = .raise status ∧
      t.exitStatus = some status ∧ t.regs = a.regs ∧ t.flags = a.flags ∧ t.mem = a.mem
end

