-- ==== Sys2Proof/Laws/Bytes.lean ====
section
/-! SUPPORT. Taking nibbles and bytes apart and putting them together (spec/00_scope.md R6, spec/20_memory.md R41). -/

namespace Sys2Proof

/-- Bit `i` of a byte put together from two nibbles (R6). -/
theorem getLsbD_byteOf (hi lo : Nibble) (i : Nat) :
    (byteOf hi lo).getLsbD i = if i < 4 then lo.getLsbD i else hi.getLsbD (i - 4) := by
  have := BitVec.getLsbD_append (x := hi) (y := lo) (i := i)
  simpa [byteOf] using this

/-- The high nibble of `byteOf` (R61, R62). -/
theorem hiNibble_byteOf (hi lo : Nibble) : hiNibble (byteOf hi lo) = hi := by
  apply BitVec.eq_of_getLsbD_eq
  intro i h
  simp only [hiNibble, BitVec.getLsbD_extractLsb', getLsbD_byteOf]
  simp [h]

/-- The low nibble of `byteOf` (R61, R62). -/
theorem loNibble_byteOf (hi lo : Nibble) : loNibble (byteOf hi lo) = lo := by
  apply BitVec.eq_of_getLsbD_eq
  intro i h
  simp only [loNibble, BitVec.getLsbD_extractLsb', getLsbD_byteOf]
  simp [h]

/-- Bit `i` of a u64 put together from eight bytes, least significant first (R41). -/
theorem getLsbD_longOf (b : Nat → Byte) (i : Nat) (h : i < 64) :
    (longOf b).getLsbD i = (b (i / 8)).getLsbD (i % 8) := by
  have h1 : (longOf b).getLsbD i =
      (b 7 ++ (b 6 ++ (b 5 ++ (b 4 ++ (b 3 ++ (b 2 ++ (b 1 ++ b 0)))))) :
        BitVec (8 + (8 + (8 + (8 + (8 + (8 + (8 + 8)))))))).getLsbD i := rfl
  rw [h1]
  have hq : i / 8 < 8 := by omega
  obtain ⟨q, hq'⟩ : ∃ q, i / 8 = q := ⟨_, rfl⟩
  rw [hq'] at hq ⊢
  simp only [BitVec.getLsbD_append]
  interval_cases q
  all_goals
    split_ifs <;> first | omega | (congr 1; omega)

/-- Byte `i` of a u64 put together from eight bytes (R41). -/
theorem byteAt_longOf (b : Nat → Byte) (i : Nat) (h : i < 8) : byteAt (longOf b) i = b i := by
  apply BitVec.eq_of_getLsbD_eq
  intro k hk
  simp only [byteAt, BitVec.getLsbD_extractLsb', hk, decide_true, Bool.true_and]
  rw [getLsbD_longOf _ _ (by omega), show (8 * i + k) / 8 = i by omega, show (8 * i + k) % 8 = k by omega]

/-- A u64 is put together from its own bytes (R41). -/
theorem longOf_byteAt (v : Word) : longOf (byteAt v) = v := by
  apply BitVec.eq_of_getLsbD_eq
  intro k hk
  rw [getLsbD_longOf _ _ hk]
  simp only [byteAt, BitVec.getLsbD_extractLsb', show k % 8 < 8 by omega, decide_true, Bool.true_and]
  congr 1
  omega

/-- A byte is put together from its own nibbles (R6). -/
theorem byteOf_nibbles (b : Byte) : byteOf (hiNibble b) (loNibble b) = b := by
  apply BitVec.eq_of_getLsbD_eq
  intro i h
  simp only [getLsbD_byteOf, hiNibble, loNibble, BitVec.getLsbD_extractLsb']
  split
  · next h4 => simp [h4]
  · next h4 => simp [show i - 4 < 4 by omega, show 4 + (i - 4) = i by omega]

/-! ## The tables of numbers: each is read back, for every numbering without repeats (R66 to R68) -/

/-- The nibble that an opcode class was read from is its number, under every numbering (R66, R70). -/
@[simp] theorem nibble_ofNibble (c : Config) (n : Nibble) : (Icode.ofNibble c n).nibble c = n := by
  unfold Icode.ofNibble
  cases h : legalClasses.find? fun ic => ic.nibble c == n with
  | none => rfl
  | some ic => simpa using List.find?_some h

/-- The ifun that an ALU function was read from is its number, under every numbering (R67). -/
theorem ifun_of_aluFn_ofIfun {c : Config} {fn : Nibble} {f : AluFn} (h : AluFn.ofIfun c fn = some f) :
    f.ifun c = fn := by simpa using List.find?_some h

/-- The ifun that a relation was read from is its number, under every numbering (R68). -/
theorem ifun_of_cond_ofIfun {c : Config} {fn : Nibble} {r : Cond} (h : Cond.ofIfun c fn = some r) :
    r.ifun c = fn := by simpa using List.find?_some h

/-- In a list whose numbers do not repeat, a member is the first with its number. -/
theorem find_by_number {α : Type} (number : α → Nibble) {l : List α} (hl : (l.map number).Nodup) {a : α}
    (ha : a ∈ l) : (l.find? fun b => number b == number a) = some a := by
  induction l with
  | nil => simp at ha
  | cons b l ih =>
    simp only [List.map_cons, List.nodup_cons, List.mem_map, not_exists, not_and] at hl
    rcases List.mem_cons.1 ha with rfl | h
    · simp
    · have hne : number b ≠ number a := fun e => hl.1 a h e.symm
      simp [hne, ih hl.2 h]

/-- The parts of `Config.numbersDistinct`. -/
theorem numbersDistinct_iff {c : Config} : c.numbersDistinct = true ↔
    ((legalClasses.map (·.nibble c)).Nodup ∧ (AluFn.all.map (·.ifun c)).Nodup) ∧ (Cond.all.map (·.ifun c)).Nodup := by
  simp [Config.numbersDistinct]

/-- The number of a legal class is read back as that class. -/
theorem ofNibble_nibble {c : Config} (hc : c.numbersDistinct = true) {ic : Icode} (h : ic.legal = true) :
    Icode.ofNibble c (ic.nibble c) = ic := by
  have hm : ic ∈ legalClasses := by cases ic <;> simp_all [legalClasses, Icode.legal]
  simp [Icode.ofNibble, find_by_number _ (numbersDistinct_iff.1 hc).1.1 hm]

/-- The number of an ALU function is read back as that function. -/
theorem aluFn_ofIfun_ifun {c : Config} (hc : c.numbersDistinct = true) (f : AluFn) :
    AluFn.ofIfun c (f.ifun c) = some f :=
  find_by_number _ (numbersDistinct_iff.1 hc).1.2 (by cases f <;> simp [AluFn.all])

/-- The number of a relation is read back as that relation. -/
theorem cond_ofIfun_ifun {c : Config} (hc : c.numbersDistinct = true) (r : Cond) :
    Cond.ofIfun c (r.ifun c) = some r :=
  find_by_number _ (numbersDistinct_iff.1 hc).2 (by cases r <;> simp [Cond.all])

/-- The machine's numbers do not repeat (G1, G9). -/
@[simp] theorem machine_numbersDistinct : Config.machine.numbersDistinct = true := by decide

/-- The stack pointer is one of the 15 registers (R13). -/
@[simp] theorem rsp_ne_rnone (c : Config) : c.rsp ≠ rnone := by
  have h : ∀ r : Fin 15, BitVec.ofNat 4 r ≠ rnone := by decide
  exact h c.rspId

/-- The machine's stack pointer (G2). -/
@[simp] theorem machine_rsp : Config.machine.rsp = 4 := rfl

end Sys2Proof
end

