-- ==== Sys2Proof/Laws/State.lean ====
section
/-! SUPPORT. What each update of the state leaves in each field, so that no proof unfolds a record update. -/

namespace Sys2Proof.Machine

/-! ## The stop (R92, R266) -/

@[simp] theorem takeStop_regs (s : State) (st : Stat) : (s.takeStop st).regs = s.regs := rfl
@[simp] theorem takeStop_flags (s : State) (st : Stat) : (s.takeStop st).flags = s.flags := rfl
@[simp] theorem takeStop_mem (s : State) (st : Stat) : (s.takeStop st).mem = s.mem := rfl
@[simp] theorem takeStop_F (s : State) (st : Stat) : (s.takeStop st).F = s.F := rfl
@[simp] theorem takeStop_D (s : State) (st : Stat) : (s.takeStop st).D = s.D := rfl
@[simp] theorem takeStop_E (s : State) (st : Stat) : (s.takeStop st).E = s.E := rfl
@[simp] theorem takeStop_M (s : State) (st : Stat) : (s.takeStop st).M = s.M := rfl
@[simp] theorem takeStop_W (s : State) (st : Stat) : (s.takeStop st).W = s.W := rfl
@[simp] theorem takeStop_stopped (s : State) (st : Stat) : (s.takeStop st).stopped = true := rfl
@[simp] theorem takeStop_exitStatus (s : State) (st : Stat) : (s.takeStop st).exitStatus = some st := rfl

/-! ## Loading (R282, R289) -/

@[simp] theorem load_regs (c : Config) (s : State) (a : Nat) (bs : List Byte) :
    (s.load c a bs).regs = s.regs := rfl
@[simp] theorem load_flags (c : Config) (s : State) (a : Nat) (bs : List Byte) :
    (s.load c a bs).flags = s.flags := rfl
@[simp] theorem load_mem (c : Config) (s : State) (a : Nat) (bs : List Byte) :
    (s.load c a bs).mem = s.mem.setList a (bs.take (c.memSize - a)) := rfl
@[simp] theorem load_F (c : Config) (s : State) (a : Nat) (bs : List Byte) :
    (s.load c a bs).F = s.F := rfl
@[simp] theorem load_D (c : Config) (s : State) (a : Nat) (bs : List Byte) :
    (s.load c a bs).D = s.D := rfl
@[simp] theorem load_E (c : Config) (s : State) (a : Nat) (bs : List Byte) :
    (s.load c a bs).E = s.E := rfl
@[simp] theorem load_M (c : Config) (s : State) (a : Nat) (bs : List Byte) :
    (s.load c a bs).M = s.M := rfl
@[simp] theorem load_W (c : Config) (s : State) (a : Nat) (bs : List Byte) :
    (s.load c a bs).W = s.W := rfl
@[simp] theorem load_stopped (c : Config) (s : State) (a : Nat) (bs : List Byte) :
    (s.load c a bs).stopped = s.stopped := rfl
@[simp] theorem load_exitStatus (c : Config) (s : State) (a : Nat) (bs : List Byte) :
    (s.load c a bs).exitStatus = s.exitStatus := rfl

/-! ## Writeback at the high phase (R180 to R183) -/

@[simp] theorem writeback_flags (s : State) : (writeback s).flags = s.flags := by unfold writeback; split <;> rfl
@[simp] theorem writeback_mem (s : State) : (writeback s).mem = s.mem := by unfold writeback; split <;> rfl
@[simp] theorem writeback_F (s : State) : (writeback s).F = s.F := by unfold writeback; split <;> rfl
@[simp] theorem writeback_D (s : State) : (writeback s).D = s.D := by unfold writeback; split <;> rfl
@[simp] theorem writeback_E (s : State) : (writeback s).E = s.E := by unfold writeback; split <;> rfl
@[simp] theorem writeback_M (s : State) : (writeback s).M = s.M := by unfold writeback; split <;> rfl
@[simp] theorem writeback_W (s : State) : (writeback s).W = s.W := by unfold writeback; split <;> rfl

theorem writeback_regs (s : State) : (writeback s).regs = if wStop s.W then s.regs else commit s.W s.regs := by
  unfold writeback; split <;> rfl

theorem writeback_stopped (s : State) : (writeback s).stopped = (wStop s.W || s.stopped) := by
  unfold writeback; split <;> simp_all

theorem writeback_exitStatus (s : State) :
    (writeback s).exitStatus = if wStop s.W then some s.W.stat else s.exitStatus := by
  unfold writeback; split <;> rfl

/-! ## Pipeline registers (R83) -/

section Latch

variable {α : Type} (b x p : α)

@[simp] theorem latch_normal : latch .normal b x p = p := rfl
@[simp] theorem latch_stall : latch .stall b x p = x := rfl
@[simp] theorem latch_bubble : latch .bubble b x p = b := rfl

end Latch

/-! ## The high phase (R91) -/

section Cycle

variable (c : Config) (fetch : Memory → Word → FetchOut) (s : State)

theorem cycleState_regs :
    (cycleState c fetch s).regs = if wStop s.W then s.regs else commit s.W s.regs := writeback_regs s

theorem cycleState_stopped : (cycleState c fetch s).stopped = (wStop s.W || s.stopped) := writeback_stopped s

theorem cycleState_exitStatus :
    (cycleState c fetch s).exitStatus = if wStop s.W then some s.W.stat else s.exitStatus := writeback_exitStatus s

@[simp] theorem cycleState_flags : (cycleState c fetch s).flags = (exeOut c s).flags := rfl

@[simp] theorem cycleState_mem : (cycleState c fetch s).mem = (memOut c s).mem := rfl

theorem cycleState_F :
    (cycleState c fetch s).F =
      latch (fCtlNow c s) s.F s.F ⟨(fetch (memOut c s).mem (fetchPC s)).predPC⟩ := rfl

theorem cycleState_D :
    (cycleState c fetch s).D =
      latch (dCtlNow c s) .bubble s.D
        (pendingD (fetch (memOut c s).mem (fetchPC s))) := rfl

theorem cycleState_E :
    (cycleState c fetch s).E =
      latch (eCtlNow c s) .bubble s.E (pendingE s.D (decOut c s)) := rfl

theorem cycleState_M :
    (cycleState c fetch s).M =
      latch (mCtlNow c s) .bubble s.M (pendingM s.E (exeOut c s)) := rfl

@[simp] theorem cycleState_W : (cycleState c fetch s).W = pendingW s.M (memOut c s) := rfl

end Cycle

end Sys2Proof.Machine
end

