-- ==== Sys2Proof/Laws/Cycle.lean ====
section
/-! SUPPORT. Once for each shared operation: everything it can answer. -/

namespace Sys2Proof.Machine

/-- A clock cycle answers a next state exactly for a running machine, and it is `cycleState` (R91, R92). -/
theorem clock_next_iff {c : Config} {fetch : Memory → Word → FetchOut} {s t : State} :
    clock c fetch s = .next t ↔ s.stopped = false ∧ t = cycleState c fetch s := by
  unfold clock
  cases s.stopped <;> simp [eq_comm]

/-- A running machine's clock cycle. -/
theorem clock_running {c : Config} {fetch : Memory → Word → FetchOut} {s : State} (h : s.stopped = false) :
    clock c fetch s = .next (cycleState c fetch s) := clock_next_iff.2 ⟨h, rfl⟩

/-- A stopped machine's clock cycle (R25). -/
theorem clock_stopped {c : Config} {fetch : Memory → Word → FetchOut} {s : State} (h : s.stopped = true) :
    clock c fetch s = .fault .machineStopped := by simp [clock, h]

/-- The record each instruction's meaning issues (R60, R103 to R108). -/
def recordOf : Instr → Word → FetchOut
  | .halt fn => fetchedO .hlt .halt fn
  | .nop fn => fetchedO .aok .nop fn
  | .rrmovq rA rB => fetchedR .rrmovq (Cond.always.ifun Config.machine) rA rB
  | .cmovle rA rB => fetchedR .rrmovq (Cond.le.ifun Config.machine) rA rB
  | .cmovl rA rB => fetchedR .rrmovq (Cond.l.ifun Config.machine) rA rB
  | .cmove rA rB => fetchedR .rrmovq (Cond.e.ifun Config.machine) rA rB
  | .cmovne rA rB => fetchedR .rrmovq (Cond.ne.ifun Config.machine) rA rB
  | .cmovge rA rB => fetchedR .rrmovq (Cond.ge.ifun Config.machine) rA rB
  | .cmovg rA rB => fetchedR .rrmovq (Cond.g.ifun Config.machine) rA rB
  | .irmovq fn rA rB v => fetchedI .irmovq fn rA rB v
  | .rmmovq fn rA rB d => fetchedI .rmmovq fn rA rB d
  | .mrmovq fn rA rB d => fetchedI .mrmovq fn rA rB d
  | .addq rA rB => fetchedR .opq (AluFn.add.ifun Config.machine) rA rB
  | .subq rA rB => fetchedR .opq (AluFn.sub.ifun Config.machine) rA rB
  | .andq rA rB => fetchedR .opq (AluFn.and.ifun Config.machine) rA rB
  | .xorq rA rB => fetchedR .opq (AluFn.xor.ifun Config.machine) rA rB
  | .jmp dest => fetchedJ .jxx (Cond.always.ifun Config.machine) dest
  | .jle dest => fetchedJ .jxx (Cond.le.ifun Config.machine) dest
  | .jl dest => fetchedJ .jxx (Cond.l.ifun Config.machine) dest
  | .je dest => fetchedJ .jxx (Cond.e.ifun Config.machine) dest
  | .jne dest => fetchedJ .jxx (Cond.ne.ifun Config.machine) dest
  | .jge dest => fetchedJ .jxx (Cond.ge.ifun Config.machine) dest
  | .jg dest => fetchedJ .jxx (Cond.g.ifun Config.machine) dest
  | .call fn dest => fetchedJ .call fn dest
  | .ret fn => fetchedO .aok .ret fn
  | .pushq fn rA rB => fetchedR .pushq fn rA rB
  | .popq fn rA rB => fetchedR .popq fn rA rB

/-- Every meaning is `issue` over the instruction's record. -/
theorem exec_eq_issue (i : Instr) (s : State) : exec i s = issue (recordOf i) s := by cases i <;> rfl

/-- The record of bytes that are none of the 27 instructions (R70, R71, R103). -/
def rejectedRecord : Reject → Word → FetchOut
  | .noFirstByte => fetchedOutOfBounds
  | .illegalOpcode ic fn => fetchedO .ins ic fn
  | .undefinedAluFunction fn rA rB => fetchedR .opq fn rA rB
  | .undefinedMoveCondition fn rA rB => fetchedR .rrmovq fn rA rB
  | .undefinedJumpCondition fn dest => fetchedJ .jxx fn dest

theorem execRejected_eq_issue (r : Reject) (s : State) : execRejected r s = issue (rejectedRecord r) s := by
  cases r <;> rfl

/-- Everything a step can answer with a next state: a clock cycle whose fetch is the record of what the decoder
reads. -/
theorem step_next {s t : State} (h : step s = .next t) :
    s.stopped = false ∧ ∃ record : Word → FetchOut, t = cycleState Config.machine (fun _ pc => record pc) s := by
  unfold step at h
  split at h
  · rw [exec_eq_issue] at h
    exact ⟨(clock_next_iff.1 h).1, _, (clock_next_iff.1 h).2⟩
  · rw [execRejected_eq_issue] at h
    exact ⟨(clock_next_iff.1 h).1, _, (clock_next_iff.1 h).2⟩

end Sys2Proof.Machine
end

