-- ==== Sys2Proof/Laws/Memory.lean ====
section
/-! SUPPORT. Memory: a read after a write, what a write leaves alone, and that every operation keeps the canonical
form (R40 to R45). -/

namespace Sys2Proof.Machine

namespace Memory

/-! ## Frames -/

@[simp] theorem get_nil (a : Nat) : get [] a = Config.unlistedByte := rfl

theorem get_cons (p : Host.Cell) (m : Memory) (a : Nat) :
    get (p :: m) a = if p.1 = a then p.2 else get m a := rfl

/-- A write leaves every other address alone. -/
theorem get_set_ne {m : Memory} {a b : Nat} {v : Byte} (h : b ≠ a) : (m.set a v).get b = m.get b := by
  induction m with
  | nil => unfold set; split <;> simp [get, Ne.symm h]
  | cons p m ih =>
    unfold set
    split
    · split <;> simp [get, Ne.symm h]
    · split
      · next hp => split <;> simp [get, hp, Ne.symm h]
      · simp [get, ih]

/-- A write of consecutive bytes leaves every other address alone. -/
theorem get_setList_outside {m : Memory} {a b : Nat} {vs : List Byte} (h : b < a ∨ a + vs.length ≤ b) :
    (m.setList a vs).get b = m.get b := by
  induction vs generalizing m a with
  | nil => rfl
  | cons v vs ih =>
    simp only [List.length_cons] at h
    unfold setList
    rw [ih (by omega), get_set_ne (by omega)]

/-! ## The canonical form -/

theorem wfFrom_mono {size lo lo' : Nat} {m : Memory} (h : lo' ≤ lo) (hm : wfFrom size lo m = true) :
    wfFrom size lo' m = true := by
  cases m with
  | nil => rfl
  | cons p m =>
    simp only [wfFrom, Bool.and_eq_true, decide_eq_true_eq] at hm ⊢
    exact ⟨⟨⟨by omega, hm.1.1.2⟩, hm.1.2⟩, hm.2⟩

/-- Below the lowest listed address a canonical memory reads the unlisted byte. -/
theorem get_below {size lo a : Nat} {m : Memory} (hm : wfFrom size lo m = true) (h : a < lo) :
    m.get a = Config.unlistedByte := by
  induction m generalizing lo with
  | nil => rfl
  | cons p m ih =>
    simp only [wfFrom, Bool.and_eq_true, decide_eq_true_eq] at hm
    have hp : p.1 ≠ a := by omega
    simp [get, hp, ih hm.2 (by omega)]

theorem wfFrom_set {size lo a : Nat} {m : Memory} {v : Byte} (hm : wfFrom size lo m = true) (hlo : lo ≤ a)
    (ha : a < size) : wfFrom size lo (m.set a v) = true := by
  induction m generalizing lo with
  | nil => unfold set; split <;> simp_all [wfFrom]
  | cons p m ih =>
    have hm' := hm
    simp only [wfFrom, Bool.and_eq_true, decide_eq_true_eq] at hm
    obtain ⟨⟨⟨h1, h2⟩, h3⟩, h4⟩ := hm
    unfold set
    split
    · next hlt =>
      split
      · exact hm'
      · next hv =>
        simp only [wfFrom, Bool.and_eq_true, decide_eq_true_eq]
        exact ⟨⟨⟨hlo, ha⟩, hv⟩, ⟨⟨⟨by omega, h2⟩, h3⟩, h4⟩⟩
    · split
      · next hge heq =>
        split
        · exact wfFrom_mono (by omega) h4
        · next hv =>
          simp only [wfFrom, Bool.and_eq_true, decide_eq_true_eq]
          exact ⟨⟨⟨hlo, ha⟩, hv⟩, by rw [← heq]; exact h4⟩
      · simp only [wfFrom, Bool.and_eq_true, decide_eq_true_eq]
        exact ⟨⟨⟨h1, h2⟩, h3⟩, ih h4 (by omega)⟩

/-- A write in bounds keeps the canonical form. -/
theorem wf_set {size a : Nat} {m : Memory} {v : Byte} (hm : m.wf size) (ha : a < size) : (m.set a v).wf size :=
  wfFrom_set hm (Nat.zero_le a) ha

/-- A write of consecutive bytes in bounds keeps the canonical form. -/
theorem wf_setList {size a : Nat} {m : Memory} {vs : List Byte} (hm : m.wf size) (ha : a + vs.length ≤ size) :
    (m.setList a vs).wf size := by
  induction vs generalizing m a with
  | nil => exact hm
  | cons v vs ih =>
    simp only [List.length_cons] at ha
    exact ih (wf_set hm (by omega)) (by omega)

theorem get_set_eq_from {size lo a : Nat} {m : Memory} {v : Byte} (hm : wfFrom size lo m = true) :
    (m.set a v).get a = v := by
  induction m generalizing lo with
  | nil => unfold set; split <;> simp_all [get]
  | cons p m ih =>
    have hm' := hm
    simp only [wfFrom, Bool.and_eq_true, decide_eq_true_eq] at hm
    obtain ⟨⟨⟨h1, h2⟩, h3⟩, h4⟩ := hm
    unfold set
    split
    · next hlt =>
      split
      · next hv =>
        have hp : p.1 ≠ a := by omega
        simp [get, hp, get_below h4 (show a < p.1 + 1 by omega), hv]
      · simp [get]
    · split
      · next hge heq =>
        split
        · next hv => rw [get_below h4 (show a < p.1 + 1 by omega), hv]
        · simp [get]
      · next hne => simp [get, hne, ih h4]

/-- A read after a write to the same address gives the byte written. -/
theorem get_set_eq {size a : Nat} {m : Memory} {v : Byte} (hm : m.wf size) : (m.set a v).get a = v :=
  get_set_eq_from hm

/-- A read after a write of consecutive bytes gives the byte written. -/
theorem get_setList_inside {size a i : Nat} {m : Memory} {vs : List Byte} (hm : m.wf size)
    (ha : a + vs.length ≤ size) (hi : i < vs.length) : (m.setList a vs).get (a + i) = vs[i] := by
  induction vs generalizing m a i with
  | nil => simp at hi
  | cons v vs ih =>
    simp only [List.length_cons] at ha hi
    unfold setList
    cases i with
    | zero => rw [get_setList_outside (by omega)]; simpa using get_set_eq hm
    | succ i =>
      have := ih (m := m.set a v) (a := a + 1) (i := i) (wf_set hm (by omega)) (by omega) (by omega)
      rw [show a + (i + 1) = a + 1 + i by omega, this]; simp

end Memory

/-! ## The accesses of the machine keep the canonical form -/

@[simp] theorem longBytes_length (v : Word) : (longBytes v).length = 8 := rfl

/-- An 8-byte store keeps the canonical form (R44, R45). -/
theorem memWrite8_wf {c : Config} {m : Memory} {a v : Word} (hm : m.wf c.memSize) :
    (memWrite8 c m a v).wf c.memSize := by
  unfold memWrite8
  split
  · next h =>
    simp only [admitted, Bool.and_eq_true, decide_eq_true_eq] at h
    exact Memory.wf_setList hm (by simpa using h.1)
  · exact hm

/-- A clock cycle keeps the canonical form of the memory (R174). -/
theorem memoryStage_wf {c : Config} {m : Memory} {M : MReg} (hm : m.wf c.memSize) :
    (memoryStage c m M).mem.wf c.memSize := by
  simp only [memoryStage]
  split
  · exact memWrite8_wf hm
  · exact hm

/-- Loading keeps the canonical form (R289: data that would overflow memory is not placed). -/
theorem load_wf {c : Config} {s : State} {a : Nat} {bs : List Byte} (hm : s.mem.wf c.memSize) :
    (s.load c a bs).mem.wf c.memSize := by
  by_cases h : a ≤ c.memSize
  · exact Memory.wf_setList hm (by simp only [List.length_take]; omega)
  · have : c.memSize - a = 0 := by omega
    simpa [State.load, this, Memory.setList] using hm

/-- Placing an instruction keeps the canonical form. -/
theorem placeForFetch_wf {c : Config} {s : State} {bs : List Byte} (hm : s.mem.wf c.memSize) :
    (placeForFetch c s bs).mem.wf c.memSize := by
  unfold placeForFetch redirectFetch
  apply load_wf
  repeat' split
  all_goals exact hm

theorem reset_mem_wf : State.reset.mem.wf Config.machine.memSize := rfl

/-- An 8-byte store writes nothing outside its eight bytes (R44). -/
theorem get_memWrite8_outside {c : Config} {m : Memory} {a v : Word} {k : Nat}
    (h : k < a.toNat ∨ a.toNat + 8 ≤ k) : (memWrite8 c m a v).get k = m.get k := by
  unfold memWrite8
  split
  · exact Memory.get_setList_outside (by simpa using h)
  · rfl

end Sys2Proof.Machine
end

