-- ==== Sys2Proof/Laws/PerInstr.lean ====
section
/-! SUPPORT. What is said of every instruction as syntax: one lemma per constructor. -/

namespace Sys2Proof.Laws.EncodedLength

/-- The first byte of the encoding alone decides its length, by the class in its high nibble, under every numbering
without repeats (R60, R72). -/
def Statement (i : Instr) : Prop :=
  ∀ c : Config, c.numbersDistinct = true →
    (encode c i).length = (Icode.ofNibble c (hiNibble ((encode c i).headD 0))).length

/-- The first byte names the class, and so the length. -/
theorem length_of_head (ic : Icode) (h : ic.legal = true) (fn : Nibble) (c : Config) (hc : c.numbersDistinct = true) :
    ic.length = (Icode.ofNibble c (hiNibble (byteOf (ic.nibble c) fn))).length := by
  rw [hiNibble_byteOf, ofNibble_nibble hc h]

theorem halt (fn : Nibble) : Statement (.halt fn) :=
  fun c => length_of_head .halt rfl _ c

theorem nop (fn : Nibble) : Statement (.nop fn) :=
  fun c => length_of_head .nop rfl _ c

theorem rrmovq (rA : RegId) (rB : RegId) : Statement (.rrmovq rA rB) :=
  fun c => length_of_head .rrmovq rfl _ c

theorem cmovle (rA : RegId) (rB : RegId) : Statement (.cmovle rA rB) :=
  fun c => length_of_head .rrmovq rfl _ c

theorem cmovl (rA : RegId) (rB : RegId) : Statement (.cmovl rA rB) :=
  fun c => length_of_head .rrmovq rfl _ c

theorem cmove (rA : RegId) (rB : RegId) : Statement (.cmove rA rB) :=
  fun c => length_of_head .rrmovq rfl _ c

theorem cmovne (rA : RegId) (rB : RegId) : Statement (.cmovne rA rB) :=
  fun c => length_of_head .rrmovq rfl _ c

theorem cmovge (rA : RegId) (rB : RegId) : Statement (.cmovge rA rB) :=
  fun c => length_of_head .rrmovq rfl _ c

theorem cmovg (rA : RegId) (rB : RegId) : Statement (.cmovg rA rB) :=
  fun c => length_of_head .rrmovq rfl _ c

theorem irmovq (fn : Nibble) (rA : RegId) (rB : RegId) (v : Word) : Statement (.irmovq fn rA rB v) :=
  fun c => length_of_head .irmovq rfl _ c

theorem rmmovq (fn : Nibble) (rA : RegId) (rB : RegId) (d : Word) : Statement (.rmmovq fn rA rB d) :=
  fun c => length_of_head .rmmovq rfl _ c

theorem mrmovq (fn : Nibble) (rA : RegId) (rB : RegId) (d : Word) : Statement (.mrmovq fn rA rB d) :=
  fun c => length_of_head .mrmovq rfl _ c

theorem addq (rA : RegId) (rB : RegId) : Statement (.addq rA rB) :=
  fun c => length_of_head .opq rfl _ c

theorem subq (rA : RegId) (rB : RegId) : Statement (.subq rA rB) :=
  fun c => length_of_head .opq rfl _ c

theorem andq (rA : RegId) (rB : RegId) : Statement (.andq rA rB) :=
  fun c => length_of_head .opq rfl _ c

theorem xorq (rA : RegId) (rB : RegId) : Statement (.xorq rA rB) :=
  fun c => length_of_head .opq rfl _ c

theorem jmp (dest : Word) : Statement (.jmp dest) :=
  fun c => length_of_head .jxx rfl _ c

theorem jle (dest : Word) : Statement (.jle dest) :=
  fun c => length_of_head .jxx rfl _ c

theorem jl (dest : Word) : Statement (.jl dest) :=
  fun c => length_of_head .jxx rfl _ c

theorem je (dest : Word) : Statement (.je dest) :=
  fun c => length_of_head .jxx rfl _ c

theorem jne (dest : Word) : Statement (.jne dest) :=
  fun c => length_of_head .jxx rfl _ c

theorem jge (dest : Word) : Statement (.jge dest) :=
  fun c => length_of_head .jxx rfl _ c

theorem jg (dest : Word) : Statement (.jg dest) :=
  fun c => length_of_head .jxx rfl _ c

theorem call (fn : Nibble) (dest : Word) : Statement (.call fn dest) :=
  fun c => length_of_head .call rfl _ c

theorem ret (fn : Nibble) : Statement (.ret fn) :=
  fun c => length_of_head .ret rfl _ c

theorem pushq (fn : Nibble) (rA : RegId) (rB : RegId) : Statement (.pushq fn rA rB) :=
  fun c => length_of_head .pushq rfl _ c

theorem popq (fn : Nibble) (rA : RegId) (rB : RegId) : Statement (.popq fn rA rB) :=
  fun c => length_of_head .popq rfl _ c

end Sys2Proof.Laws.EncodedLength
end

