-- ==== Sys2Proof/WellFormed.lean ====
section
/-! DEFINITION. The canonical instructions of spec/30_encoding.md R69: what an assembler writes. The hardware
accepts more (R71), and so does the decoder; nothing of the machine depends on this check. -/

namespace Sys2Proof

/-- An ifun nibble the hardware ignores is 0 in a canonical instruction (R69, R71). -/
def canonicalFn (fn : Nibble) : Bool := fn = 0

/-- A register nibble the class ignores is the filler 0xF in a canonical instruction (R69, R71). -/
def canonicalFiller (r : RegId) : Bool := r = rnone

/-- A register operand of a canonical instruction names one of the 15 registers (R69, R71). -/
def namesRegister (r : RegId) : Bool := r ≠ rnone

/-- Is the instruction one of the 27 canonical forms of R69? -/
def Instr.wellFormed : Instr → Bool
  | .halt fn | .nop fn | .ret fn | .call fn _ => canonicalFn fn
  | .rrmovq rA rB | .cmovle rA rB | .cmovl rA rB | .cmove rA rB | .cmovne rA rB | .cmovge rA rB | .cmovg rA rB
  | .addq rA rB | .subq rA rB | .andq rA rB | .xorq rA rB => namesRegister rA && namesRegister rB
  | .irmovq fn rA rB _ => canonicalFn fn && canonicalFiller rA && namesRegister rB
  | .rmmovq fn rA rB _ | .mrmovq fn rA rB _ => canonicalFn fn && namesRegister rA && namesRegister rB
  | .pushq fn rA rB | .popq fn rA rB => canonicalFn fn && namesRegister rA && canonicalFiller rB
  | .jmp _ | .jle _ | .jl _ | .je _ | .jne _ | .jge _ | .jg _ => true

end Sys2Proof
end

