-- ==== Sys2Proof/Tests/Slice0.lean ====
section
/-! SUPPORT. Tests and witnesses. Every expected value is spec/95_test_vectors.md's (the section is named) or is worked
out by hand from a rule; each step test is one step on a small state. -/

namespace Sys2Proof.Machine.Tests

/-! ## Small states: one pipeline register loaded, the rest at reset -/

def withMem (bs : List Byte) : State := State.reset.load Config.machine 0 bs

def inD (icode : Icode) (ifun : Nibble) (rA rB : RegId) : DReg :=
  { DReg.bubble with icode := icode, ifun := ifun, rA := rA, rB := rB }

def inE (icode : Icode) (ifun : Nibble) (a b c : Word) (dE dM : RegId) : EReg :=
  { EReg.bubble with icode := icode, ifun := ifun, valA := a, valB := b, valC := c, dstE := dE, dstM := dM }

def inM (icode : Icode) (cnd : Bool) (e a : Word) (dE dM : RegId) : MReg :=
  { MReg.bubble with icode := icode, cnd := cnd, valE := e, valA := a, dstE := dE, dstM := dM }

def inW (stat : Stat) (icode : Icode) (e m : Word) (dE dM : RegId) : WReg :=
  { stat := stat, icode := icode, valE := e, valM := m, dstE := dE, dstM := dM }

def sD (d : DReg) : State := { State.reset with D := d }
def sE (e : EReg) : State := { State.reset with E := e }
def sM (m : MReg) : State := { State.reset with M := m }
def sW (w : WReg) : State := { State.reset with W := w }
def sPC (pc : Word) : State := { State.reset with F := ⟨pc⟩ }
def sRsp (v : Word) : State := { State.reset with regs := regWrite State.reset.regs 4 v }
def flagged (z n o : Bool) (s : State) : State := { s with flags := ⟨z, n, o⟩ }

/-- What a step leaves, for a look at one part of it. -/
def after {α : Type} (o : Host.Outcome State Fault Refusal) (look : State → α) : Option α :=
  match o with
  | .next t => some (look t)
  | .fault _ => none
  | .refused _ => none

abbrev cfg : Config := Config.machine

/-! ## WellFormed: each check refuses an ill-formed term -/

theorem test_wf_ifun : Instr.wellFormed (.halt 1) = false := by decide
theorem test_wf_filler : Instr.wellFormed (.irmovq 0 3 0 5) = false := by decide
theorem test_wf_filler_low : Instr.wellFormed (.pushq 0 5 0) = false := by decide
theorem test_wf_register : Instr.wellFormed (.addq 0xF 1) = false := by decide
theorem test_wf_canonical : Instr.wellFormed (.rmmovq 0 4 3 (-8)) = true := by decide

/-! ## Decoding: every constructor by a word written out from R69 (and the vectors of section 2.1, 2.9) -/

theorem test_decode_halt : decode cfg [0b00000000] = .ok (.halt 0, []) := by decide
theorem test_decode_nop : decode cfg [0b00010000] = .ok (.nop 0, []) := by decide
theorem test_decode_rrmovq : decode cfg [0b00100000, 0b00010010] = .ok (.rrmovq 1 2, []) := by decide
theorem test_decode_cmovle : decode cfg [0b00100001, 0b00000011] = .ok (.cmovle 0 3, []) := by decide
theorem test_decode_cmovl : decode cfg [0b00100010, 0b00110001] = .ok (.cmovl 3 1, []) := by decide
theorem test_decode_cmove : decode cfg [0b00100011, 0b00000011] = .ok (.cmove 0 3, []) := by decide
theorem test_decode_cmovne : decode cfg [0b00100100, 0b00000011] = .ok (.cmovne 0 3, []) := by decide
theorem test_decode_cmovge : decode cfg [0b00100101, 0b00110010] = .ok (.cmovge 3 2, []) := by decide
theorem test_decode_cmovg : decode cfg [0b00100110, 0b00111110] = .ok (.cmovg 3 0xE, []) := by decide
theorem test_decode_irmovq : decode cfg [0b00110000, 0b11110011, 0x88, 0x77, 0x66, 0x55, 0x44, 0x33, 0x22, 0x11] =
    .ok (.irmovq 0 0xF 3 0x1122334455667788, []) := by decide
theorem test_decode_rmmovq : decode cfg [0b01000000, 0b01000011, 0xf8, 0xff, 0xff, 0xff, 0xff, 0xff, 0xff, 0xff] =
    .ok (.rmmovq 0 4 3 0xfffffffffffffff8, []) := by decide
theorem test_decode_mrmovq : decode cfg [0b01010000, 0b00010101, 0x10, 0, 0, 0, 0, 0, 0, 0] =
    .ok (.mrmovq 0 1 5 0x10, []) := by decide
theorem test_decode_addq : decode cfg [0b01100000, 0b00000011] = .ok (.addq 0 3, []) := by decide
theorem test_decode_subq : decode cfg [0b01100001, 0b00100011] = .ok (.subq 2 3, []) := by decide
theorem test_decode_andq : decode cfg [0b01100010, 0b00000001] = .ok (.andq 0 1, []) := by decide
theorem test_decode_xorq : decode cfg [0b01100011, 0b00000001] = .ok (.xorq 0 1, []) := by decide
theorem test_decode_jmp : decode cfg [0b01110000, 0x00, 0x02, 0, 0, 0, 0, 0, 0] = .ok (.jmp 0x200, []) := by decide
theorem test_decode_jle : decode cfg [0b01110001, 0x20, 0, 0, 0, 0, 0, 0, 0x80] =
    .ok (.jle 0x8000000000000020, []) := by decide
theorem test_decode_jl : decode cfg [0b01110010, 0x80, 0, 0, 0, 0, 0, 0, 0] = .ok (.jl 0x80, []) := by decide
theorem test_decode_je : decode cfg [0b01110011, 0x80, 0, 0, 0, 0, 0, 0, 0] = .ok (.je 0x80, []) := by decide
theorem test_decode_jne : decode cfg [0b01110100, 0x00, 0x02, 0, 0, 0, 0, 0, 0] = .ok (.jne 0x200, []) := by decide
theorem test_decode_jge : decode cfg [0b01110101, 0x80, 0, 0, 0, 0, 0, 0, 0] = .ok (.jge 0x80, []) := by decide
theorem test_decode_jg : decode cfg [0b01110110, 0x80, 0, 0, 0, 0, 0, 0, 0] = .ok (.jg 0x80, []) := by decide
theorem test_decode_call : decode cfg [0b10000000, 0x00, 0x03, 0, 0, 0, 0, 0, 0] = .ok (.call 0 0x300, []) := by decide
theorem test_decode_ret : decode cfg [0b10010000, 0x41] = .ok (.ret 0, [0x41]) := by decide
theorem test_decode_pushq : decode cfg [0b10100000, 0b01011111] = .ok (.pushq 0 5 0xF, []) := by decide
theorem test_decode_popq : decode cfg [0b10110000, 0b00001111] = .ok (.popq 0 0 0xF, []) := by decide

/-- Non-canonical bytes (R71; section 2.1 rows `0f`, `6f 01`, `c5`). -/
theorem test_decode_halt_any_ifun : decode cfg [0x0f] = .ok (.halt 0xF, []) := by decide
theorem test_decode_undefined_alu : decode cfg [0x6f, 0x01] = .error (.undefinedAluFunction 0xF 0 1) := by decide
theorem test_decode_illegal : decode cfg [0xc5] = .error (.illegalOpcode (.illegal 0xC) 5) := by decide
theorem test_decode_table_word : decodeTableWord 80 0x1122334455667788f330 =
    some (.irmovq 0 0xF 3 0x1122334455667788) := by decide
theorem test_decode_table_word_short : decodeTableWord 8 0x70 = some (.jmp 0) := by decide

/-! ## Fetch (section 2.1, 2.2) -/

/-- Row `f_pc = 0xfff`, `Mem[0xfff] = 30`: an instruction straddling the end. -/
theorem test_fetch_straddles_end : fetchStage Config.machine [(0xfff, 0x30)] 0xfff =
    { stat := .aok, icode := .irmovq, ifun := 0, rA := 0, rB := 0, valC := 0, valP := 0x1009, predPC := 0x1009 } := by
  decide
/-- Row `f_pc = 0xffffffffffffffff`. -/
theorem test_fetch_wraps : fetchStage Config.machine [] (-1) =
    { stat := .adr, icode := .nop, ifun := 0, rA := 0xF, rB := 0xF, valC := 0, valP := 0, predPC := 0 } := by decide
/-- Row "jump before return". -/
theorem test_select_jump_before_return :
    selectPC ⟨0x50⟩ (inM .jxx false 0 0x2b 0xF 0xF) (inW .aok .ret 0 0x13 4 0xF) = 0x2b := by decide

/-! ## Decode and forwarding (section 2.3) -/

def vectors : Forwards := ⟨⟨0, 1⟩, ⟨0, 2⟩, ⟨0, 3⟩, ⟨0, 4⟩, ⟨0, 5⟩⟩

theorem test_fwd_execute_first : fwd Config.machine vectors State.reset.regs 0 = 1 := by decide
theorem test_fwd_m_dstE_first :
    fwd Config.machine { vectors with e := ⟨0xF, 1⟩ } State.reset.regs 0 = 2 := by decide
theorem test_fwd_m_dstM_first :
    fwd { Config.machine with fwdMOrder := .dstMFirst } { vectors with e := ⟨0xF, 1⟩ } State.reset.regs 0 = 3 := by
  decide
theorem test_fwd_w_dstM_before_dstE :
    fwd Config.machine { vectors with e := ⟨0xF, 1⟩, mE := ⟨0xF, 2⟩, mM := ⟨0xF, 3⟩ } State.reset.regs 0 = 4 := by
  decide
theorem test_fwd_sentinel : fwd Config.machine { vectors with e := ⟨0xF, 1⟩ } State.reset.regs 0xF = 0 := by decide

/-! ## Execute (section 2.4, 2.5): one step with the instruction in E -/

theorem test_addq_overflow : after (step (sE (inE .opq 0 0x7fffffffffffffff 1 0 1 0xF))) (fun t => (t.M.valE, t.flags)) =
    some (0x8000000000000000, ⟨false, true, true⟩) := by decide
theorem test_subq_order : after (step (sE (inE .opq 1 7 5 0 0 0xF))) (fun t => (t.M.valE, t.flags)) =
    some (0xfffffffffffffffe, ⟨false, true, false⟩) := by decide
theorem test_subq_overflow : after (step (sE (inE .opq 1 0x8000000000000000 0 0 0 0xF))) (fun t => t.flags) =
    some ⟨false, true, true⟩ := by decide
theorem test_andq_keeps_of : after (step (flagged false false true (sE (inE .opq 2 0xf0 0x3c 0 3 0xF))))
    (fun t => (t.M.valE, t.flags)) = some (0x30, ⟨false, false, true⟩) := by decide
theorem test_xorq_zero : after (step (sE (inE .opq 3 5 5 0 0 0xF))) (fun t => (t.M.valE, t.flags)) =
    some (0, ⟨true, false, false⟩) := by decide
theorem test_undefined_alu : after (step (sE (inE .opq 4 3 4 0 0 0xF))) (fun t => (t.M.valE, t.flags)) =
    some (0, ⟨true, false, false⟩) := by decide
theorem test_cmovl_moves : after (step (flagged false true false (sE (inE .rrmovq 2 7 0 0 1 0xF))))
    (fun t => (t.M.valE, t.M.dstE)) = some (7, 1) := by decide
theorem test_cmovge_cancelled : after (step (flagged false true false (sE (inE .rrmovq 5 7 0 0 2 0xF))))
    (fun t => t.M.dstE) = some 0xF := by decide
/-- Section 2.5, the rows of relation by flags. -/
theorem test_conditions : [Cond.always, .le, .l, .e, .ne, .ge, .g].map (fun r => condHolds r ⟨false, true, true⟩) =
    [true, false, false, false, true, true, true] := by decide
theorem test_conditions_zero : [Cond.always, .le, .l, .e, .ne, .ge, .g].map (fun r => condHolds r ⟨true, false, true⟩) =
    [true, true, true, true, false, false, false] := by decide
theorem test_undefined_condition : cond cfg 7 ⟨true, true, false⟩ = false := by decide

/-! ## Memory (section 2.6): one step with the instruction in M -/

theorem test_rmmovq_little_endian : after (step (sM (inM .rmmovq false 0x100 0x1122334455667788 0xF 0xF)))
    (fun t => t.mem) = some [(0x100, 0x88), (0x101, 0x77), (0x102, 0x66), (0x103, 0x55), (0x104, 0x44), (0x105, 0x33),
      (0x106, 0x22), (0x107, 0x11)] := by decide
theorem test_pushq_store : after (step (sM (inM .pushq false 0x1f8 0xabc 4 0xF))) (fun t => t.mem) =
    some [(0x1f8, 0xbc), (0x1f9, 0x0a)] := by decide
theorem test_call_wraps_to_error : after (step (sM (inM .call false (-8) 0x13 4 0xF))) (fun t => (t.W.stat, t.mem)) =
    some (.adr, []) := by decide
theorem test_mrmovq_last_admitted : after (step ({ sM (inM .mrmovq false 0xff8 0 0xF 0) with mem := [(0xfff, 0x11)] }))
    (fun t => (t.W.stat, t.W.valM)) = some (.aok, 0x1100000000000000) := by decide
theorem test_mrmovq_first_refused : after (step (sM (inM .mrmovq false 0xff9 0 0xF 0)))
    (fun t => (t.W.stat, t.W.valM)) = some (.adr, 0) := by decide
theorem test_popq_loads_old_pointer : after (step ({ sM (inM .popq false 0x200 0x1f8 4 3) with mem := [(0x1f8, 0xbc)] }))
    (fun t => (t.W.valM, t.W.valE)) = some (0xbc, 0x200) := by decide
theorem test_ret_error : after (step (sM (inM .ret false 0x1008 0x1000 4 0xF))) (fun t => t.W.stat) =
    some .adr := by decide

/-! ## Writeback (section 2.7) -/

theorem test_irmovq_commits : after (step (sW (inW .aok .irmovq 5 0 0 0xF))) (fun t => regRead t.regs 0) = some 5 := by
  decide
theorem test_popq_rsp_keeps_loaded : after (step (sW (inW .aok .popq 0x200 0x123 4 4))) (fun t => regRead t.regs 4) =
    some 0x123 := by decide
theorem test_halt_stops : after (step (sW (inW .hlt .halt 0 0 0xF 0xF))) (fun t => (t.stopped, t.exitStatus)) =
    some (true, some .hlt) := by decide
theorem test_fault_suppresses_write : after (step (sW (inW .adr .pushq (-8) 0 4 0xF)))
    (fun t => (regRead t.regs 4, t.exitStatus)) = some (0, some .adr) := by decide

/-! ## Hazards (section 2.8) -/

theorem test_loaduse : after (step ({ sE (inE .mrmovq 0 0 0 0 0xF 0) with D := inD .opq 0 0 3, F := ⟨0x20⟩ }))
    (fun t => (t.F.predPC, t.D.icode, t.E)) = some (0x20, .opq, .bubble) := by decide
theorem test_mispredict : after (step (flagged true false false (sE (inE .jxx 4 0x2b 0 0x1e 0xF 0xF))))
    (fun t => (t.E, t.D, fetchPC t)) = some (.bubble, .bubble, 0x2b) := by decide
theorem test_retdrain_normal : after (step { withMem [0x10] with D := inD .ret 0 0xF 0xF })
    (fun t => (t.F.predPC, t.D.icode, t.E.icode)) = some (0, .nop, .ret) := by decide
theorem test_retdrain_bubble : after (cycle { Config.machine with retDrainD := .bubble }
    { withMem [0x20, 0x12] with D := inD .ret 0 0xF 0xF }) (fun t => (t.F.predPC, t.D, t.E.icode)) =
    some (0, .bubble, .ret) := by decide

/-! ## Whole-instruction vectors (section 2.9): the sequential view -/

def start : SeqState :=
  { regs := regWrite (regWrite (regWrite (regWrite State.reset.regs 0 0x10) 1 0x20) 3 0x30) 4 0x200
    flags := ⟨false, false, false⟩, mem := [(0x100, 7)], pc := 0x40 }

def seqAfter {α : Type} (o : SeqOutcome) (look : SeqState → α) : Option α :=
  match o with
  | .next t => some (look t)
  | .raise _ => none

theorem test_seq_subq : seqAfter (seqExec Config.machine (.subq 1 0) start) (fun a => (regRead a.regs 0, a.flags, a.pc)) =
    some (0xfffffffffffffff0, ⟨false, true, false⟩, 0x42) := by decide
theorem test_seq_call : seqAfter (seqExec Config.machine (.call 0 0x80) start)
    (fun a => (a.mem, regRead a.regs 4, a.pc)) = some ([(0x100, 7), (0x1f8, 0x49)], 0x1f8, 0x80) := by decide
theorem test_seq_pushq_rsp : seqAfter (seqExec Config.machine (.pushq 0 4 0xF) start)
    (fun a => (a.mem, regRead a.regs 4)) = some ([(0x100, 7), (0x1f9, 2)], 0x1f8) := by decide
theorem test_seq_ret : seqAfter (seqExec Config.machine (.ret 0) { start with mem := [(0x200, 0x13)] })
    (fun a => (regRead a.regs 4, a.pc)) = some (0x208, 0x13) := by decide
theorem test_seq_rmmovq_fault : seqExec Config.machine (.rmmovq 0 0 3 0xfd0) start = .raise .adr := by decide
theorem test_seq_jg_not_taken : seqAfter (seqExec Config.machine (.jg 0x80) { start with flags := ⟨true, false, false⟩ })
    (fun a => a.pc) = some 0x49 := by decide

/-! ## The first step after reset (worked example of 41_fetch_stage.md) -/

theorem test_first_fetch : after (step (withMem [0x30, 0xf0, 5])) (fun t => (t.D, t.F.predPC)) =
    some ({ stat := .aok, icode := .irmovq, ifun := 0, rA := 0xF, rB := 0, valC := 5, valP := 10 }, 10) := by decide
theorem test_placed_word_runs : step (State.reset.withFetchWord 16 0x1220) =
    exec (.rrmovq 1 2) (State.reset.withFetchWord 16 0x1220) := rfl

/-! ## Witnesses: a concrete state and operands that meet the hypotheses of each statement, and of each clause at a
boundary of its range. Named after the statement. -/

def cfgText : Config := { Config.machine with retDrainD := .bubble, fwdMOrder := .dstMFirst }

/-- The operands of `sRsp` in small: `%rsp = 0x200`. -/
def s200 : State := sRsp 0x200

/-- Another numbering without repeats: HALT and NOP, `sub` and `xor` exchanged. -/
def cfgOther : Config :=
  { cfg with numbers := { Config.customaryNumbers with halt := 1, nop := 0, sub := 3, xor := 1 } }

theorem test_other_numbers : decode cfgOther [0x00] = .ok (.nop 0, []) ∧
    decode cfgOther [0x61, 0x23] = .ok (.xorq 2 3, []) ∧ encode cfgOther (.halt 0) = [0x10] := by decide

theorem witness_DecodeOfEncodeIsTheInstruction :
    cfg.numbersDistinct = true ∧ cfgOther.numbersDistinct = true := by decide

theorem witness_RelationsCompareSignedAfterSubtraction :
    cfg.numbersDistinct = true ∧ cfgOther.numbersDistinct = true := by decide

theorem witness_DecodedBytesAreTheEncoding :
    decode cfg [0x20, 0x12, 0x99] = .ok (.rrmovq 1 2, [0x99]) ∧ (encode cfg (.rrmovq 1 2)).length ≤ 3 := by decide

theorem witness_BytesAreRejectedExactlyByName :
    decode cfg [0xc0] = .error (.illegalOpcode (.illegal 0xC) 0) ∧ decode cfg [0x64, 0x12] = .error (.undefinedAluFunction 4 1 2) ∧
    decode cfg [0x27, 0x12] = .error (.undefinedMoveCondition 7 1 2) ∧
    decode cfg [0x77, 1] = .error (.undefinedJumpCondition 7 1) := by decide

theorem witness_StepRunsTheDecodedInstruction :
    decode cfg (bytesAtFetch (withMem [0x10])) = .ok (.nop 0, [0, 0, 0, 0, 0, 0, 0, 0, 0]) ∧
    decode cfg (bytesAtFetch (sPC 0x1000)) = .error .noFirstByte := by decide

theorem witness_StoredEncodingIsRun :
    inBounds cfg (fetchPC (withMem [0x20, 0x12])) = true ∧
    ∀ k, k < (encode cfg (.rrmovq 1 2)).length →
      memByte cfg (memOut cfg (withMem [0x20, 0x12])).mem (fetchPC (withMem [0x20, 0x12]) + BitVec.ofNat 64 k) =
        (encode cfg (.rrmovq 1 2)).getD k 0 := by decide

/-- At the last byte of memory. -/
theorem witness_StoredEncodingIsRun_end :
    inBounds cfg (fetchPC { sPC 0xfff with mem := [(0xfff, 0x90)] }) = true ∧
    ∀ k, k < (encode cfg (.ret 0)).length →
      memByte cfg (memOut cfg { sPC 0xfff with mem := [(0xfff, 0x90)] }).mem
        (fetchPC { sPC 0xfff with mem := [(0xfff, 0x90)] } + BitVec.ofNat 64 k) =
        (encode cfg (.ret 0)).getD k 0 := by decide

theorem witness_PlacedInstructionIsRun :
    Memory.wf cfg.memSize State.reset.mem ∧ decodeTableWord 16 0x1220 = some (.rrmovq 1 2) := by decide

theorem witness_MachineRunsExactlyUntilStopped :
    State.reset.stopped = false ∧ (State.reset.takeStop .hlt).stopped = true := by decide

theorem witness_EveryStepKeepsLegal :
    Legal cfg State.reset ∧ (∃ t, cycle cfg State.reset = .next t) ∧ (∃ t, step State.reset = .next t) ∧
    ∃ t, exec (.addq 1 2) State.reset = .next t := ⟨by decide, ⟨_, rfl⟩, ⟨_, rfl⟩, ⟨_, rfl⟩⟩

/-- A legal state whose step stops, and one with an unadmitted store in M. -/
theorem witness_EveryStepKeepsLegal_stop : Legal cfg (sW (inW .hlt .halt 0 0 0xF 0xF)) ∧
    Legal cfg (sM (inM .pushq false (-8) 5 4 0xF)) := by decide

def mispredictedM : State := sM (inM .jxx false 0 0x2b 0xF 0xF)
def retW : State := sW (inW .aok .ret 0x208 0x13 4 0xF)

theorem witness_FetchAddressPriority :
    (mispredictedM.M.icode = .jxx ∧ mispredictedM.M.cnd = false) ∧
    (¬(retW.M.icode = .jxx ∧ retW.M.cnd = false) ∧ retW.W.icode = .ret) ∧
    (¬(State.reset.M.icode = .jxx ∧ State.reset.M.cnd = false) ∧ State.reset.W.icode ≠ .ret) := by decide

theorem witness_FetchedStatusPriority_address :
    (∃ t, step (sPC 0x1000) = .next t) ∧ dCtlNow cfg (sPC 0x1000) = .normal ∧
    cfg.memSize ≤ (fetchPC (sPC 0x1000)).toNat := ⟨⟨_, rfl⟩, by decide⟩

theorem witness_FetchedStatusPriority_illegal :
    ∃ t, step { sPC 0xfff with mem := [(0xfff, 0xc0)] } = .next t ∧
      dCtlNow cfg { sPC 0xfff with mem := [(0xfff, 0xc0)] } = .normal ∧ (0xfff : Nat) < cfg.memSize ∧
      (Icode.ofNibble cfg (hiNibble (t.mem.get 0xfff))).legal = false := ⟨_, rfl, by decide⟩

theorem witness_FetchedStatusPriority_halt :
    ∃ t, step State.reset = .next t ∧ dCtlNow cfg State.reset = .normal ∧ (0 : Nat) < cfg.memSize ∧
      Icode.ofNibble cfg (hiNibble (t.mem.get 0)) = .halt := ⟨_, rfl, by decide⟩

theorem witness_FetchedStatusPriority_ok :
    ∃ t, step (withMem [0xb0]) = .next t ∧ dCtlNow cfg (withMem [0xb0]) = .normal ∧ (0 : Nat) < cfg.memSize ∧
      (Icode.ofNibble cfg (hiNibble (t.mem.get 0))).legal = true ∧
      Icode.ofNibble cfg (hiNibble (t.mem.get 0)) ≠ .halt := ⟨_, rfl, by decide⟩

theorem witness_FallThroughAndPrediction :
    (∃ t, exec (.call 0 0x20) State.reset = .next t) ∧ (∃ t, exec (.irmovq 0 0xF 1 5) State.reset = .next t) ∧
    dCtlNow cfg State.reset = .normal ∧ fCtlNow cfg State.reset = .normal := ⟨⟨_, rfl⟩, ⟨_, rfl⟩, by decide⟩

/-- The store of this cycle lands on the byte fetched in it. -/
theorem witness_FetchSeesThisCyclesStore :
    ∃ t, step (sM (inM .rmmovq false 0 0x10 0xF 0xF)) = .next t ∧
      dCtlNow cfg (sM (inM .rmmovq false 0 0x10 0xF 0xF)) = .normal ∧ t.D.icode = .nop := ⟨_, rfl, by decide⟩

theorem witness_DecodedIdsOfEveryClass :
    (∃ t, step (sD (inD .opq 0 1 2)) = .next t) ∧ eCtlNow cfg (sD (inD .opq 0 1 2)) = .normal := ⟨⟨_, rfl⟩, by decide⟩

theorem witness_OperandsComeFromTheFirstMatch :
    (∃ t, cycle cfg (sD (inD .call 0 0xF 0xF)) = .next t) ∧ eCtlNow cfg (sD (inD .call 0 0xF 0xF)) = .normal ∧
    (∃ t, cycle cfg (sD (inD .opq 0 1 2)) = .next t) ∧ eCtlNow cfg (sD (inD .opq 0 1 2)) = .normal :=
  ⟨⟨_, rfl⟩, by decide, ⟨_, rfl⟩, by decide⟩

/-- One source of `ResolvesTo` after another: sentinel, Execute, the two destinations of M, of W, the register file. -/
theorem witness_OperandsComeFromTheFirstMatch_sources :
    ((1 : RegId) ≠ rnone ∧ (1 : RegId) = (exeOut cfg (sE (inE .irmovq 0 0 0 5 1 0xF))).dstE) ∧
    ((1 : RegId) ≠ (exeOut cfg (sM (inM .opq false 7 0 1 0xF))).dstE ∧ (sM (inM .opq false 7 0 1 0xF)).M.dstE = 1 ∧
      cfg.fwdMOrder = .dstEFirst) ∧
    ((1 : RegId) ≠ (exeOut cfg (sM (inM .popq false 8 0 4 1))).dstE ∧ (sM (inM .popq false 8 0 4 1)).M.dstM = 1 ∧
      (1 : RegId) ≠ (sM (inM .popq false 8 0 4 1)).M.dstE) ∧
    ((sW (inW .aok .popq 8 3 4 1)).W.dstM = 1 ∧ (sW (inW .aok .popq 8 3 4 1)).M.dstM ≠ 1) ∧
    ((sW (inW .aok .popq 8 3 4 1)).W.dstE = 4 ∧ (4 : RegId) ≠ (sW (inW .aok .popq 8 3 4 1)).W.dstM) ∧
    (State.reset.W.dstE ≠ 1 ∧ State.reset.W.dstM ≠ 1) := by decide

theorem witness_ForwardingGivesTheNewestValue :
    (0 : RegId) ≠ rnone ∧ (cfgText.fwdMOrder = .dstMFirst) ∧
    ({ vectors with mE := ⟨4, 2⟩ } : Forwards).mE.id ≠ vectors.mM.id ∧
    ({ vectors with mE := ⟨rnone, 2⟩ } : Forwards).mE.id = rnone := by decide

theorem witness_WritebackPlacementIsUnobservable :
    vectors.wE = ⟨(inW .aok .popq 5 4 0 0).dstE, (inW .aok .popq 5 4 0 0).valE⟩ ∧
    vectors.wM = ⟨(inW .aok .popq 5 4 0 0).dstM, (inW .aok .popq 5 4 0 0).valM⟩ := by decide

theorem witness_RegisterFileContract : (0xE : RegId) ≠ rnone ∧ (0 : RegId) ≠ 0xE := by decide

theorem witness_AluResultOfEveryClass :
    (∃ t, step (sE (inE .opq 1 7 5 0 0 0xF)) = .next t) ∧ mCtlNow cfg (sE (inE .opq 1 7 5 0 0 0xF)) = .normal :=
  ⟨⟨_, rfl⟩, by decide⟩

def opqE : State := sE (inE .opq 0 1 2 0 0 0xF)
def opqBehindFault : State := { opqE with M := inM .rmmovq false 0x1000 1 0xF 0xF }

theorem witness_FlagsAreWrittenOnlyByAnUnprotectedOpq :
    (∃ t, cycle cfg opqE = .next t) ∧ (opqE.E.icode = .opq ∧ (memOut cfg opqE).stat = .aok ∧ opqE.W.stat = .aok) ∧
    (∃ t, cycle cfg opqBehindFault = .next t) ∧ (memOut cfg opqBehindFault).stat ≠ .aok :=
  ⟨⟨_, rfl⟩, by decide, ⟨_, rfl⟩, by decide⟩

def cmovE : State := sE (inE .rrmovq 3 7 0 0 1 0xF)

theorem witness_ConditionCancelsTheMove :
    (∃ t, step cmovE = .next t) ∧ mCtlNow cfg cmovE = .normal ∧ cmovE.E.icode = .rrmovq ∧
    cond cfg cmovE.E.ifun cmovE.flags = false ∧
    (∃ t, step opqE = .next t) ∧ mCtlNow cfg opqE = .normal ∧ opqE.E.icode ≠ .jxx ∧ opqE.E.icode ≠ .rrmovq :=
  ⟨⟨_, rfl⟩, by decide, by decide, by decide, ⟨_, rfl⟩, by decide⟩

/-- At the last admitted address and at the first that is not. -/
theorem witness_MemoryChangesOnlyByTheStoreInM :
    let s := sM (inM .rmmovq false 0xff8 1 0xF 0xF)
    let r := sM (inM .rmmovq false 0xff9 1 0xF 0xF)
    Memory.wf cfg.memSize s.mem ∧ (∃ t, step s = .next t) ∧
      (writesMem s.M.icode = true ∧ admitted cfg (memAddr s.M) = true) ∧
    Memory.wf cfg.memSize r.mem ∧ (∃ t, step r = .next t) ∧
      ¬(writesMem r.M.icode = true ∧ admitted cfg (memAddr r.M) = true) :=
  ⟨rfl, ⟨_, rfl⟩, by decide, rfl, ⟨_, rfl⟩, by decide⟩

theorem witness_LoadBringsItsBytesToW :
    (∃ t, step (sM (inM .mrmovq false 0xff8 0 0xF 1)) = .next t) ∧ admitted cfg 0xff8 = true ∧
    (∃ t, step (sM (inM .ret false 8 0 4 0xF)) = .next t) ∧ admitted cfg 0 = true ∧
    (∃ t, step (sM (inM .popq false 0x1000 0xff8 4 1)) = .next t) ∧
    (∃ t, step (sM (inM .popq false 8 0xff9 4 1)) = .next t) ∧
      readsMem (sM (inM .popq false 8 0xff9 4 1)).M.icode = true ∧
      admitted cfg (memAddr (sM (inM .popq false 8 0xff9 4 1)).M) = false ∧
    (∃ t, step State.reset = .next t) ∧ State.reset.M.icode ≠ .mrmovq ∧ State.reset.M.icode ≠ .popq ∧
      State.reset.M.icode ≠ .ret :=
  ⟨⟨_, rfl⟩, by decide, ⟨_, rfl⟩, by decide, ⟨_, rfl⟩, ⟨_, rfl⟩, by decide, by decide, ⟨_, rfl⟩, by decide⟩

theorem witness_MemoryContract :
    Memory.wf cfg.memSize [] ∧ cfg.memSize ≤ 2 ^ 64 ∧ admitted cfg 0xff8 = true ∧
    (0xff0 : Word).toNat + 8 ≤ (0xff8 : Word).toNat := by decide

theorem witness_UnadmittedAccessIsAnAddressError :
    let s := sM (inM .popq false 8 0xff9 4 1)
    let r := sM (inM .call false (-8) 1 4 0xF)
    (∃ t, step s = .next t) ∧ readsMem s.M.icode = true ∧ admitted cfg (memAddr s.M) = false ∧
    (∃ t, step r = .next t) ∧ writesMem r.M.icode = true ∧ admitted cfg (memAddr r.M) = false :=
  ⟨⟨_, rfl⟩, by decide, by decide, ⟨_, rfl⟩, by decide, by decide⟩

theorem witness_WritebackCommitsOrStops :
    (∃ t, step (sW (inW .adr .pushq 0 0 4 0xF)) = .next t) ∧ (sW (inW .adr .pushq 0 0 4 0xF)).W.stat ≠ .aok ∧
    (∃ t, step (sW (inW .aok .popq 8 3 4 1)) = .next t) ∧ (sW (inW .aok .popq 8 3 4 1)).W.stat = .aok ∧
      (sW (inW .aok .popq 8 3 4 1)).W.icode ≠ .halt ∧ (0xE : RegId) ≠ 4 ∧ (0xE : RegId) ≠ 1 :=
  ⟨⟨_, rfl⟩, by decide, ⟨_, rfl⟩, by decide⟩

theorem witness_StopCycleChangesNothingArchitectural :
    Legal cfg (sW (inW .adr .pushq 0 0 4 0xF)) ∧ (∃ t, step (sW (inW .adr .pushq 0 0 4 0xF)) = .next t) ∧
    (sW (inW .adr .pushq 0 0 4 0xF)).W.stat ≠ .aok := ⟨by decide, ⟨_, rfl⟩, by decide⟩

/-- A store that is not admitted, with an OPQ behind it, and a HALT in M. -/
theorem witness_NothingBehindAFaultTakesEffect :
    (Legal cfg opqBehindFault ∧ opqBehindFault.stopped = false ∧ opqBehindFault.W.stat = .aok ∧
      (memOut cfg opqBehindFault).stat ≠ .aok) ∧
    (let s := sM { MReg.bubble with stat := .hlt, icode := .halt }
     Legal cfg s ∧ s.stopped = false ∧ s.W.stat = .aok ∧ (memOut cfg s).stat ≠ .aok) := by decide

def loadUseState : State := { sE (inE .mrmovq 0 0 0 0x100 0xF 0) with D := inD .opq 0 0 3, mem := [(0x100, 7)] }
def mispredictState : State := flagged true false false (sE (inE .jxx 4 0x2b 0 0x1e 0xF 0xF))
def drainState : State := { State.reset with D := inD .ret 0 0xF 0xF }

theorem witness_RegistersObeyTheHazardUnit :
    (∃ t, cycle cfg loadUseState = .next t) ∧ loadUseNow cfg loadUseState = true ∧
    (∃ t, cycle cfg drainState = .next t) ∧ loadUseNow cfg drainState = false ∧ retDrainNow drainState = true ∧
    (∃ t, cycle cfg mispredictState = .next t) ∧ mispredictNow cfg mispredictState = true ∧
      retDrainNow mispredictState = false ∧ loadUseNow cfg mispredictState = false ∧
    (∃ t, cycle cfg State.reset = .next t) ∧ loadUseNow cfg State.reset = false ∧ retDrainNow State.reset = false ∧
      mispredictNow cfg State.reset = false ∧
    (∃ t, cycle cfg opqBehindFault = .next t) ∧ (memOut cfg opqBehindFault).stat ≠ .aok :=
  ⟨⟨_, rfl⟩, by decide, ⟨_, rfl⟩, by decide, by decide, ⟨_, rfl⟩, by decide, by decide, by decide, ⟨_, rfl⟩,
    by decide, by decide, by decide, ⟨_, rfl⟩, by decide⟩

theorem witness_LoadUseCostsOneCycle :
    ∃ t, step loadUseState = .next t ∧ loadUseNow cfg loadUseState = true ∧ mCtlNow cfg loadUseState = .normal ∧
      loadUseState.E.dstM ≠ rnone ∧ loadUseState.E.dstM ≠ loadUseState.E.dstE ∧
      (decOut cfg t).srcA = loadUseState.E.dstM := ⟨_, rfl, by decide⟩

theorem witness_LoadUseCostsOneCycle_srcB :
    ∃ t, step { loadUseState with D := inD .opq 0 3 0 } = .next t ∧
      loadUseNow cfg { loadUseState with D := inD .opq 0 3 0 } = true ∧
      mCtlNow cfg { loadUseState with D := inD .opq 0 3 0 } = .normal ∧
      (decOut cfg t).srcB = loadUseState.E.dstM := ⟨_, rfl, by decide⟩

theorem witness_ReturnDrainStallsFetch :
    (∃ t, step drainState = .next t) ∧ drainState.D.icode = .ret ∧
    retW.W.icode = .ret ∧ ¬(retW.M.icode = .jxx ∧ retW.M.cnd = false) := ⟨⟨_, rfl⟩, by decide⟩

theorem witness_MispredictedJumpIsSquashed :
    (∃ t, step mispredictState = .next t) ∧ mispredictState.E.icode = .jxx ∧
    cond cfg mispredictState.E.ifun mispredictState.flags = false ∧ (memOut cfg mispredictState).stat = .aok ∧
    mispredictState.W.stat = .aok ∧ mispredictState.D.icode ≠ .ret ∧ mispredictState.M.icode ≠ .ret :=
  ⟨⟨_, rfl⟩, by decide⟩

theorem witness_InstructionAfterRetIsInDForThreeCycles : Ready State.reset := by decide

theorem witness_HaltStopsWithShlt : Ready State.reset := by decide
theorem witness_NopCompletes : Ready State.reset := by decide
theorem witness_MovesComplete : Ready (flagged true true false State.reset) := by decide
theorem witness_IrmovqCompletes : Ready s200 := by decide

/-- The last admitted address and the first that is not, from the base 0. -/
theorem witness_RmmovqCompletesOrRaises :
    Ready State.reset ∧ admitted cfg (operand State.reset.regs 1 + 0xff8) = true ∧
    admitted cfg (operand State.reset.regs 1 + 0xff9) = false := by decide
theorem witness_MrmovqCompletesOrRaises :
    Ready State.reset ∧ admitted cfg (operand State.reset.regs 0xF + 0xff8) = true ∧
    admitted cfg (operand State.reset.regs 0xF + 0xff9) = false := by decide

theorem witness_AluOperationsComplete : Ready s200 := by decide
theorem witness_JumpsComplete : Ready (flagged false true true State.reset) := by decide

/-- `%rsp = 8` is the lowest that pushes, `%rsp = 0` wraps (section 2.9). -/
theorem witness_CallCompletesOrRaises :
    (Ready (sRsp 8) ∧ admitted cfg (regRead (sRsp 8).regs cfg.rsp - 8) = true) ∧
    (Ready (sRsp 0) ∧ admitted cfg (regRead (sRsp 0).regs cfg.rsp - 8) = false) := by decide
theorem witness_PushqCompletesOrRaises :
    (Ready (sRsp 0x1000) ∧ admitted cfg (regRead (sRsp 0x1000).regs cfg.rsp - 8) = true) ∧
    (Ready (sRsp 7) ∧ admitted cfg (regRead (sRsp 7).regs cfg.rsp - 8) = false) := by decide
theorem witness_RetCompletesOrRaises :
    (Ready (sRsp 0xff8) ∧ admitted cfg (regRead (sRsp 0xff8).regs cfg.rsp) = true) ∧
    (Ready (sRsp 0xff9) ∧ admitted cfg (regRead (sRsp 0xff9).regs cfg.rsp) = false) := by decide
theorem witness_PopqCompletesOrRaises :
    (Ready (sRsp 0xff8) ∧ admitted cfg (regRead (sRsp 0xff8).regs cfg.rsp) = true) ∧
    (Ready (sRsp 0xff9) ∧ admitted cfg (regRead (sRsp 0xff9).regs cfg.rsp) = false) := by decide

theorem witness_StoringFormsWriteExactlyEightBytes :
    Ready s200 ∧ Memory.wf cfg.memSize s200.mem ∧
    (∃ fn rA rB d, Instr.rmmovq 0 4 1 0x108 = .rmmovq fn rA rB d ∧ (0x108 : Word) = operand s200.regs rB + d ∧
      (0x200 : Word) = operand s200.regs rA) ∧ admitted cfg 0x108 = true ∧
    (∃ fn rA rB, Instr.pushq 0 4 0xF = .pushq fn rA rB ∧ (0x1f8 : Word) = regRead s200.regs cfg.rsp - 8 ∧
      (0x200 : Word) = operand s200.regs rA) ∧ admitted cfg 0x1f8 = true ∧
    (∃ fn dest, Instr.call 0 0x20 = .call fn dest ∧ (0x1f8 : Word) = regRead s200.regs cfg.rsp - 8 ∧
      (9 : Word) = fetchPC s200 + 9) :=
  ⟨by decide, by decide, ⟨0, 4, 1, 0x108, rfl, by decide, by decide⟩, by decide, ⟨0, 4, 0xF, rfl, by decide, by decide⟩,
    by decide, ⟨0, 0x20, rfl, by decide, by decide⟩⟩

/-- One instruction that completes and one that raises. -/
theorem witness_PipelineRealisesTheNetEffect :
    Ready s200 ∧ (∃ a, seqExec cfg (.pushq 0 1 0xF) (seqOf s200) = .next a) ∧
    Ready State.reset ∧ seqExec cfg (.pushq 0 1 0xF) (seqOf State.reset) = .raise .adr :=
  ⟨by decide, ⟨_, rfl⟩, by decide, by decide⟩

theorem witness_RejectedBytesPass :
    Ready State.reset ∧ Icode.legal (.illegal 0xC) = false ∧ AluFn.ofIfun cfg 4 = none ∧ Cond.ofIfun cfg 7 = none := by decide

/-- A HALT at address 0 stops in five cycles (R281): at the machine's parameters, and at the alternatives. -/
theorem witness_PipelineMeetsSequentialExecution :
    (∀ (k : Nat) (u : State), k < 5 → runText cfg [] k State.reset = .next u →
      DrainsNoReturn cfg u ∧ ForwardsNoPoppedStackPointer cfg u) ∧
    ∃ t, runText cfg [] 5 State.reset = .next t ∧ t.stopped = true := by
  refine ⟨fun k u hk h => ?_, _, rfl, rfl⟩
  obtain ⟨v, hv, hD, hM⟩ : ∃ v, runText cfg [] k State.reset = .next v ∧ v.D.icode ≠ .ret ∧ v.M.icode ≠ .popq := by
    interval_cases k <;> exact ⟨_, rfl, by decide, by decide⟩
  rw [hv] at h
  cases h
  exact ⟨.inr hD, .inr fun p => hM p.1⟩

theorem witness_PipelineMeetsSequentialExecution_alternatives :
    (∀ u : State, DrainsNoReturn cfgText u ∧ ForwardsNoPoppedStackPointer cfgText u) ∧
    ∃ t, runText cfgText [] 5 State.reset = .next t ∧ t.stopped = true :=
  ⟨fun _ => ⟨.inl rfl, .inl rfl⟩, _, rfl, rfl⟩

end Sys2Proof.Machine.Tests
end

section
/-! PROOFS. The register file (spec/10_state.md R11): a read after a write, and what a write leaves alone. -/

namespace Sys2Proof.Machine

/-- An id other than the sentinel names one of the 15 registers (R11, R62). -/
theorem toNat_lt_of_ne_rnone {r : RegId} (h : r ≠ rnone) : r.toNat < 15 := by
  have hne : r.toNat ≠ 15 := fun e => h (BitVec.eq_of_toNat_eq e)
  have hlt : r.toNat < 16 := r.isLt
  omega

/-- A write to the sentinel is discarded. -/
@[simp] theorem regWrite_rnone (x : Regs) (v : Word) : regWrite x rnone v = x := rfl

theorem regRead_regWrite_same {x : Regs} {r : RegId} {v : Word} (h : r ≠ rnone) :
    regRead (regWrite x r v) r = v := by
  simp [regRead, regWrite, toNat_lt_of_ne_rnone h]

theorem regRead_regWrite_ne {x : Regs} {r q : RegId} {v : Word} (h : q ≠ r) :
    regRead (regWrite x r v) q = regRead x q := by
  have hne : r.toNat ≠ q.toNat := fun e => h (BitVec.eq_of_toNat_eq e.symm)
  unfold regRead regWrite
  by_cases hr : r.toNat < 15
  · simp [hr, Vector.getElem_set_ne, hne]
  · simp [hr]

/-- Every register reads 0 at reset (R28). -/
theorem regRead_reset {r : RegId} (h : r ≠ rnone) : regRead State.reset.regs r = 0 := by
  simp [regRead, State.reset, toNat_lt_of_ne_rnone h]

/-- Settles O22, by the three rules of the register file. -/
theorem registerFileContract : Obligations.RegisterFileContract := by
  unfold Obligations.RegisterFileContract
  intro x r q v
  exact ⟨regRead_regWrite_same, regRead_regWrite_ne, regWrite_rnone x v⟩

/-- Settles O10: nothing is in flight and the named values stand by evaluation, the registers by `regRead_reset`. -/
theorem resetHoldsTheNamedValues : Obligations.ResetHoldsTheNamedValues := by
  unfold Obligations.ResetHoldsTheNamedValues
  refine ⟨by decide, rfl, rfl, rfl, rfl, rfl, rfl, fun r hr => ?_, rfl, fun a => ?_⟩
  · exact regRead_reset hr
  · exact Memory.get_nil a

end Sys2Proof.Machine
end

section
/-! PROOFS. The step as one clock cycle over the record of what the decoder reads (spec/10_state.md R25,
spec/40_pipeline_registers_and_clock.md R91, R92). -/

namespace Sys2Proof.Machine

/-- The record of whatever the decoder answers: an instruction's, or that of bytes that are none. -/
def decodedRecord : Except Reject (Instr × List Byte) → Word → FetchOut
  | .ok (i, _) => recordOf i
  | .error r => rejectedRecord r

theorem step_eq_issue (s : State) :
    step s = issue (decodedRecord (decode Config.machine (bytesAtFetch s))) s := by
  unfold step
  cases decode Config.machine (bytesAtFetch s) with
  | ok p => exact exec_eq_issue p.1 s
  | error r => exact execRejected_eq_issue r s

theorem issue_running {record : Word → FetchOut} {s : State} (h : s.stopped = false) :
    ∃ t, issue record s = .next t := ⟨_, clock_running h⟩

theorem issue_stopped {record : Word → FetchOut} {s : State} (h : s.stopped = true) :
    issue record s = .fault .machineStopped := clock_stopped h

/-! ## The source ids of E (R20) -/

/-- E is never stalled: it takes its bubble or its pending input (R195). -/
theorem latch_eCtl {α : Type} (loaduse mispred : Bool) (b x p : α) :
    latch (eCtl loaduse mispred) b x p = if loaduse || mispred then b else p := by
  unfold eCtl
  split <;> rfl

/-- `s` with other source ids in E. -/
def withSourcesInE (s : State) (a b : RegId) : State := { s with E := { s.E with srcA := a, srcB := b } }

/-- E's source ids could survive only in a stalled E; every stage reads its other fields alone. -/
theorem cycleState_withSourcesInE (c : Config) (fetch : Memory → Word → FetchOut) (s : State) (a b : RegId) :
    cycleState c fetch (withSourcesInE s a b) = cycleState c fetch s := by
  simp only [cycleState, highPhase, lowPhase, writeback_regs, writeback_stopped, writeback_exitStatus, eCtlNow,
    latch_eCtl]
  rfl

theorem issue_withSourcesInE (record : Word → FetchOut) (s : State) (a b : RegId) :
    issue record (withSourcesInE s a b) = issue record s := by
  unfold issue clock
  rw [cycleState_withSourcesInE]
  rfl

/-- Settles O9: a step and every `exec` are one `issue`, which answers by the `stopped` bit alone. -/
theorem machineRunsExactlyUntilStopped : Obligations.MachineRunsExactlyUntilStopped := by
  unfold Obligations.MachineRunsExactlyUntilStopped
  intro s
  simp only [step_eq_issue, exec_eq_issue]
  exact ⟨fun h => ⟨issue_running h, fun _ => issue_running h⟩, fun h => ⟨issue_stopped h, fun _ => issue_stopped h⟩⟩

/-- Settles O21: the bytes at the fetch do not depend on E, and the cycle not on E's source ids. -/
theorem sourceIdsInEAreReadByNoRule : Obligations.SourceIdsInEAreReadByNoRule := by
  unfold Obligations.SourceIdsInEAreReadByNoRule
  intro s a b
  rw [step_eq_issue, step_eq_issue]
  exact issue_withSourcesInE _ s a b

end Sys2Proof.Machine
end

section
/-! PROOFS. The invariant `Legal`, one pipeline register at a time: its bubble and its pending input are legal, so
whatever it latches is (spec/10_state.md R25, spec/40_pipeline_registers_and_clock.md R83, R93). -/

namespace Sys2Proof.Machine

/-! ## The invariant by pipeline register -/

/-- What `Legal` asks of D. -/
def LegalD (D : DReg) : Prop := fetchStatLegal D.stat D.icode = true ∧ fetchedFieldsLegal D = true

/-- What `Legal` asks of E. -/
def LegalE (c : Config) (E : EReg) : Prop :=
  fetchStatLegal E.stat E.icode = true ∧ destinationsLegal c E.icode E.dstE E.dstM = true

/-- What `Legal` asks of M alone. -/
def LegalM (c : Config) (M : MReg) : Prop :=
  fetchStatLegal M.stat M.icode = true ∧ destinationsLegal c M.icode M.dstE M.dstM = true ∧
  (M.cnd = true → M.icode = .jxx ∨ M.icode = .rrmovq)

/-- What `Legal` asks of W alone. -/
def LegalW (c : Config) (W : WReg) : Prop :=
  wStatLegal W.stat W.icode = true ∧ destinationsLegal c W.icode W.dstE W.dstM = true

/-- What `Legal` asks of the stop (R25, R266). -/
def LegalStop (s : State) : Prop := s.stopped = s.exitStatus.isSome ∧ s.exitStatus ≠ some .aok

theorem legal_iff {c : Config} {s : State} :
    Legal c s ↔ Memory.wf c.memSize s.mem ∧ LegalD s.D ∧ LegalE c s.E ∧ LegalM c s.M ∧ LegalW c s.W ∧
      (s.W.stat ≠ .aok → s.M = .bubble) ∧ LegalStop s := by
  simp only [Legal, LegalD, LegalE, LegalM, LegalW, LegalStop, and_assoc]

theorem legalD_bubble : LegalD .bubble := ⟨rfl, rfl⟩
theorem legalE_bubble (c : Config) : LegalE c .bubble := ⟨rfl, rfl⟩
theorem legalM_bubble (c : Config) : LegalM c .bubble := ⟨rfl, rfl, by simp [MReg.bubble]⟩
theorem legalW_neutral (c : Config) : LegalW c .neutral := ⟨rfl, rfl⟩

/-- What holds of the bubble, the old and the pending value holds of what a register latches (R83). -/
theorem latch_keeps {α : Type} {P : α → Prop} {b x p : α} (ctl : Ctl) (hb : P b) (hx : P x) (hp : P p) :
    P (latch ctl b x p) := by
  cases ctl with
  | normal => exact hp
  | stall => exact hx
  | bubble => exact hb

/-! ## Pending E: Decode's destinations (R123, R124) -/

theorem destinationsLegal_iff {c : Config} {ic : Icode} {dE dM : RegId} :
    destinationsLegal c ic dE dM = true ↔ dE = dstE c ic dE ∧ dM = dstM ic dM := by
  simp [destinationsLegal]

theorem dstE_dstE (c : Config) (ic : Icode) (r : RegId) : dstE c ic (dstE c ic r) = dstE c ic r := by
  cases ic <;> rfl

theorem dstM_dstM (ic : Icode) (r : RegId) : dstM ic (dstM ic r) = dstM ic r := by
  cases ic <;> rfl

theorem legalE_pendingE {c : Config} {s : State} (h : LegalD s.D) : LegalE c (pendingE s.D (decOut c s)) :=
  ⟨h.1, destinationsLegal_iff.2 ⟨(dstE_dstE ..).symm, (dstM_dstM ..).symm⟩⟩

/-! ## Pending M: Execute's condition and the cancelled move (R151, R152) -/

/-- A cancelled move has the sentinel as its destination, which the class of moves may have. -/
theorem dstE_dstEAfterCond {c : Config} {ic : Icode} {r : RegId} (cnd : Bool) (h : r = dstE c ic r) :
    dstEAfterCond ic cnd r = dstE c ic (dstEAfterCond ic cnd r) := by
  unfold dstEAfterCond
  split
  · next hcancelled => rw [hcancelled.1]; rfl
  · exact h

theorem icode_of_exeCnd {c : Config} {E : EReg} {f : Flags} (h : exeCnd c E f = true) :
    E.icode = .jxx ∨ E.icode = .rrmovq := by
  unfold exeCnd at h
  split at h
  · next hjxx => exact .inl hjxx
  · next hmove => exact .inr hmove
  all_goals cases h

theorem legalM_pendingM {c : Config} {s : State} (h : LegalE c s.E) : LegalM c (pendingM s.E (exeOut c s)) := by
  obtain ⟨hstat, hdst⟩ := h
  obtain ⟨hdE, hdM⟩ := destinationsLegal_iff.1 hdst
  exact ⟨hstat, destinationsLegal_iff.2 ⟨dstE_dstEAfterCond _ hdE, hdM⟩, icode_of_exeCnd⟩

/-! ## Pending W: the status of the access (R175) -/

theorem wStatLegal_memOut {c : Config} {s : State} (h : fetchStatLegal s.M.stat s.M.icode = true) :
    wStatLegal (memOut c s).stat s.M.icode = true := by
  unfold memOut memoryStage wStatLegal
  by_cases herror : memError c s.M = true
  · have haccess : (readsMem s.M.icode || writesMem s.M.icode) = true := by
      simp only [memError, Bool.and_eq_true] at herror
      exact herror.1
    simp [herror, haccess]
  · simp [herror, h]

theorem legalW_pendingW {c : Config} {s : State} (h : LegalM c s.M) : LegalW c (pendingW s.M (memOut c s)) := by
  obtain ⟨hstat, hdst, -⟩ := h
  exact ⟨wStatLegal_memOut hstat, hdst⟩

/-! ## Behind an abnormal status, and the stop (R93, R180, R196) -/

@[simp] theorem Stat.abnormal_iff {st : Stat} : st.abnormal = true ↔ st ≠ .aok := by cases st <;> simp [Stat.abnormal]

/-- The cycle that brings an abnormal status to W puts a bubble in M (R196). -/
theorem cycleState_M_of_abnormal {c : Config} {fetch : Memory → Word → FetchOut} {s : State}
    (h : (memOut c s).stat ≠ .aok) : (cycleState c fetch s).M = .bubble := by
  have hctl : mCtlNow c s = .bubble := by simp [mCtlNow, mCtl, Stat.abnormal_iff.2 h]
  rw [cycleState_M, hctl, latch_bubble]

/-- A HALT carries its own status to W, so a machine that stops has an abnormal one (R103, R180). -/
theorem stat_ne_aok_of_wStop {c : Config} {W : WReg} (h : LegalW c W) (hstop : wStop W = true) :
    W.stat ≠ .aok := by
  intro haok
  have hhalt : W.icode = .halt := by simpa [wStop, haok, Stat.abnormal] using hstop
  have hstat := h.1
  rw [haok, hhalt] at hstat
  cases hstat

theorem legalStop_cycleState {c : Config} {fetch : Memory → Word → FetchOut} {s : State} (hW : LegalW c s.W)
    (h : LegalStop s) : LegalStop (cycleState c fetch s) := by
  unfold LegalStop
  rw [cycleState_stopped, cycleState_exitStatus]
  cases hstop : wStop s.W with
  | true => simpa using stat_ne_aok_of_wStop hW hstop
  | false => simpa [LegalStop] using h

/-! ## The cycle -/

/-- A clock cycle keeps the invariant when what it fetches may enter D. -/
theorem cycleState_legal {c : Config} {fetch : Memory → Word → FetchOut} {s : State} (h : Legal c s)
    (hfetch : LegalD (pendingD (fetch (memOut c s).mem (fetchPC s)))) : Legal c (cycleState c fetch s) := by
  obtain ⟨hmem, hD, hE, hM, hW, -, hstop⟩ := legal_iff.1 h
  refine legal_iff.2 ⟨memoryStage_wf hmem, ?D, ?E, ?M, legalW_pendingW hM, cycleState_M_of_abnormal,
    legalStop_cycleState hW hstop⟩
  case D => exact latch_keeps _ legalD_bubble hD hfetch
  case E => exact latch_keeps _ (legalE_bubble c) hE (legalE_pendingE hD)
  case M => exact latch_keeps _ (legalM_bubble c) hM (legalM_pendingM hE)

theorem clock_legal {c : Config} {fetch : Memory → Word → FetchOut} {s t : State}
    (hfetch : ∀ m pc, LegalD (pendingD (fetch m pc))) (h : Legal c s) (ht : clock c fetch s = .next t) :
    Legal c t := by
  obtain ⟨-, rfl⟩ := clock_next_iff.1 ht
  exact cycleState_legal h (hfetch _ _)

/-! ## Pending D: every record a fetch gives (R103, R106, R107) -/

theorem fetchStatLegal_fetchStat (ic : Icode) : fetchStatLegal (fetchStat ic) ic = true := by
  cases ic <;> rfl

/-- Fetch reads ids and a constant only for a class that has them. -/
theorem legalD_fetchStage (c : Config) (m : Memory) (pc : Word) : LegalD (pendingD (fetchStage c m pc)) := by
  unfold fetchStage
  split
  · refine ⟨fetchStatLegal_fetchStat _, ?_⟩
    simp only [fetchedFieldsLegal, pendingD]
    cases (Icode.ofNibble c (hiNibble (memByte c m pc))).needRegids <;>
      cases (Icode.ofNibble c (hiNibble (memByte c m pc))).needValC <;> rfl
  · exact ⟨rfl, rfl⟩

theorem legalD_recordOf (i : Instr) (pc : Word) : LegalD (pendingD (recordOf i pc)) := by
  cases i <;> exact ⟨rfl, rfl⟩

/-- An illegal class takes no ids and no constant (R70). -/
theorem legalD_fetchedO_illegal {ic : Icode} (h : ic.legal = false) (fn : Nibble) (pc : Word) :
    LegalD (pendingD (fetchedO .ins ic fn pc)) := by
  cases ic with
  | illegal n => exact ⟨rfl, rfl⟩
  | _ => cases h

/-- The record of rejected bytes may enter D when a class that is rejected as illegal is. -/
theorem legalD_rejectedRecord {r : Reject} (h : ∀ ic fn, r = .illegalOpcode ic fn → ic.legal = false) (pc : Word) :
    LegalD (pendingD (rejectedRecord r pc)) := by
  cases r with
  | illegalOpcode ic fn => exact legalD_fetchedO_illegal (h ic fn rfl) fn pc
  | _ => exact ⟨rfl, rfl⟩

/-! ## What the decoder rejects as illegal is illegal (R70) -/

theorem decodeMove_ne_illegalOpcode {c : Config} {fn fn' : Nibble} {rA rB : RegId} {ic : Icode} :
    decodeMove c fn rA rB ≠ .error (.illegalOpcode ic fn') := by
  unfold decodeMove
  split <;> nofun

theorem decodeAlu_ne_illegalOpcode {c : Config} {fn fn' : Nibble} {rA rB : RegId} {ic : Icode} :
    decodeAlu c fn rA rB ≠ .error (.illegalOpcode ic fn') := by
  unfold decodeAlu
  split <;> nofun

theorem decodeJump_ne_illegalOpcode {c : Config} {fn fn' : Nibble} {dest : Word} {ic : Icode} :
    decodeJump c fn dest ≠ .error (.illegalOpcode ic fn') := by
  unfold decodeJump
  split <;> nofun

theorem illegal_of_decodeFields {c : Config} {ic ic' : Icode} {fn fn' : Nibble} {rA rB : RegId} {v : Word}
    (h : decodeFields c ic fn rA rB v = .error (.illegalOpcode ic' fn')) : ic'.legal = false := by
  cases ic with
  | rrmovq => exact absurd h decodeMove_ne_illegalOpcode
  | opq => exact absurd h decodeAlu_ne_illegalOpcode
  | jxx => exact absurd h decodeJump_ne_illegalOpcode
  | illegal n => cases h; rfl
  | _ => cases h

/-- Mapping the value of an answer leaves its error. -/
theorem eq_error_of_map {ε α β : Type} {f : α → β} {x : Except ε α} {e : ε} (h : x.map f = .error e) :
    x = .error e := by
  cases x with
  | error e' => cases h; rfl
  | ok a => cases h

theorem illegal_of_decode {c : Config} {bs : List Byte} {ic : Icode} {fn : Nibble}
    (h : decode c bs = .error (.illegalOpcode ic fn)) : ic.legal = false := by
  cases bs with
  | nil => cases h
  | cons b bs => exact illegal_of_decodeFields (eq_error_of_map h)

theorem legalD_decodedRecord (c : Config) (bs : List Byte) (pc : Word) :
    LegalD (pendingD (decodedRecord (decode c bs) pc)) := by
  cases hdecode : decode c bs with
  | ok p => exact legalD_recordOf p.1 pc
  | error r =>
    refine legalD_rejectedRecord (fun ic fn hr => ?_) pc
    exact illegal_of_decode (hr ▸ hdecode)

/-- Settles O11: each register is at its bubble and the memory is empty. -/
theorem resetIsLegal : Obligations.ResetIsLegal := by
  unfold Obligations.ResetIsLegal
  intro c
  exact legal_iff.2 ⟨rfl, legalD_bubble, legalE_bubble c, legalM_bubble c, legalW_neutral c, fun _ => rfl, rfl, nofun⟩

/-- Settles O12: the cycle, the step and every `exec` are one clock cycle over a fetch whose record may enter D, and
such a cycle keeps every part of the invariant. -/
theorem everyStepKeepsLegal : Obligations.EveryStepKeepsLegal := by
  unfold Obligations.EveryStepKeepsLegal
  refine ⟨fun c s t hs ht => ?cycle, fun s t hs ht => ?step, fun i s t hs ht => ?exec⟩
  case cycle => exact clock_legal (legalD_fetchStage c) hs ht
  case step =>
    rw [step_eq_issue] at ht
    exact clock_legal (fun _ => legalD_decodedRecord _ _) hs ht
  case exec =>
    rw [exec_eq_issue] at ht
    exact clock_legal (fun _ => legalD_recordOf i) hs ht

end Sys2Proof.Machine
end

section
/-! PROOFS. The memory contract (spec/20_memory.md R41 to R45): a load, and the byte port, after a store. -/

namespace Sys2Proof

/-- A u64 is put together from eight bytes alone (R41). -/
theorem longOf_congr {b b' : Nat → Byte} (h : ∀ i, i < 8 → b i = b' i) : longOf b = longOf b' := by
  simp [longOf, h]

theorem longBytes_eq_map (v : Word) : longBytes v = (List.range 8).map (byteAt v) := rfl

end Sys2Proof

namespace Sys2Proof.Machine

theorem admitted_iff {c : Config} {a : Word} :
    admitted c a = true ↔ a.toNat + 8 ≤ c.memSize ∧ a.toNat % c.longAlign = 0 := by
  simp [admitted]

theorem inBounds_iff {c : Config} {a : Word} : inBounds c a = true ↔ a.toNat < c.memSize := by
  simp [inBounds]

/-- An admitted store puts byte `i` of its value at offset `i` (R41, R44). -/
theorem get_memWrite8_inside {c : Config} {m : Memory} {a v : Word} {i : Nat} (hm : m.wf c.memSize)
    (ha : admitted c a = true) (hi : i < 8) : (memWrite8 c m a v).get (a.toNat + i) = byteAt v i := by
  have hfits : a.toNat + (longBytes v).length ≤ c.memSize := (admitted_iff.1 ha).1
  rw [memWrite8, if_pos ha, Memory.get_setList_inside hm hfits hi]
  simp [longBytes_eq_map]

/-- A load after an admitted store to its own address gives the value stored (R43, R44). -/
theorem memRead8_memWrite8_same {c : Config} {m : Memory} {a v : Word} (hm : m.wf c.memSize)
    (ha : admitted c a = true) : memRead8 c (memWrite8 c m a v) a = v := by
  rw [memRead8, if_pos ha, longOf_congr fun i hi => get_memWrite8_inside hm ha hi]
  exact longOf_byteAt v

/-- A store leaves a load of eight other bytes alone (R44). -/
theorem memRead8_memWrite8_disjoint {c : Config} {m : Memory} {a b v : Word}
    (h : b.toNat + 8 ≤ a.toNat ∨ a.toNat + 8 ≤ b.toNat) :
    memRead8 c (memWrite8 c m a v) b = memRead8 c m b := by
  have hbytes : ∀ i, i < 8 → (memWrite8 c m a v).get (b.toNat + i) = m.get (b.toNat + i) :=
    fun i hi => get_memWrite8_outside (by omega)
  rw [memRead8, memRead8, longOf_congr hbytes]

theorem toNat_add_ofNat {a : Word} {i : Nat} (h : a.toNat + i < 2 ^ 64) :
    (a + BitVec.ofNat 64 i).toNat = a.toNat + i := by
  simp only [BitVec.toNat_add, BitVec.toNat_ofNat]
  omega

/-- The byte port reads byte `i` of a stored value at offset `i` (R42, R44); no offset wraps around, as the eight bytes
lie below the end of a memory that a u64 can address. -/
theorem memByte_memWrite8 {c : Config} {m : Memory} {a v : Word} {i : Nat} (hm : m.wf c.memSize)
    (hsize : c.memSize ≤ 2 ^ 64) (ha : admitted c a = true) (hi : i < 8) :
    memByte c (memWrite8 c m a v) (a + BitVec.ofNat 64 i) = byteAt v i := by
  have hfits := (admitted_iff.1 ha).1
  have haddr : (a + BitVec.ofNat 64 i).toNat = a.toNat + i := toNat_add_ofNat (by omega)
  have hin : inBounds c (a + BitVec.ofNat 64 i) = true := inBounds_iff.2 (by omega)
  rw [memByte, if_pos hin, haddr, get_memWrite8_inside hm ha hi]

/-- Settles O30, by the three rules of a store: the load of its bytes, of other bytes, and the byte port. -/
theorem memoryContract : Obligations.MemoryContract := by
  unfold Obligations.MemoryContract
  intro c m a v hm hsize ha
  exact ⟨memRead8_memWrite8_same hm ha, fun b hb => memRead8_memWrite8_disjoint hb,
    fun i hi => memByte_memWrite8 hm hsize ha hi⟩

end Sys2Proof.Machine
end

section
/-! PROOFS. The decoder reads an instruction back from its encoding, by format (spec/30_encoding.md R60 to R69). -/

namespace Sys2Proof

/-- What the decoder makes of a first byte that names a legal class. -/
theorem decode_cons {c : Config} (hc : c.numbersDistinct = true) {ic : Icode} (hic : ic.legal = true) (fn : Nibble)
    (bs : List Byte) :
    decode c (byteOf (ic.nibble c) fn :: bs) =
      (decodeFields c ic fn (hiNibble (bs.headD 0)) (loNibble (bs.headD 0))
        (longOf fun k => (if ic.needRegids then bs.tail else bs).getD k 0)).map
        fun i => (i, (byteOf (ic.nibble c) fn :: bs).drop ic.length) := by
  simp only [decode, hiNibble_byteOf, loNibble_byteOf, ofNibble_nibble hc hic]

/-- A constant is read back from its eight bytes, whatever follows them (R63). -/
theorem longOf_longBytes (v : Word) (rest : List Byte) : (longOf fun k => (longBytes v ++ rest).getD k 0) = v :=
  longOf_byteAt v

section Formats

variable {c : Config} (hc : c.numbersDistinct = true) {ic : Icode} (hic : ic.legal = true) {fn : Nibble} {i : Instr}
  (rest : List Byte)
include hc hic

/-- Format O: no bytes after the first (R60). -/
theorem decode_encodeO (hregs : ic.needRegids = false) (hconst : ic.needValC = false)
    (h : ∀ rA rB v, decodeFields c ic fn rA rB v = .ok i) : decode c (encodeO c ic fn ++ rest) = .ok (i, rest) := by
  rw [encodeO, List.singleton_append, decode_cons hc hic, h, Icode.length, hregs, hconst]
  rfl

/-- Format R: the register byte (R60, R61). -/
theorem decode_encodeR {rA rB : RegId} (hregs : ic.needRegids = true) (hconst : ic.needValC = false)
    (h : ∀ v, decodeFields c ic fn rA rB v = .ok i) : decode c (encodeR c ic fn rA rB ++ rest) = .ok (i, rest) := by
  simp only [encodeR, List.cons_append, decode_cons hc hic, List.headD_cons, hiNibble_byteOf, loNibble_byteOf, h,
    Icode.length, hregs, hconst]
  rfl

/-- Format I: the register byte and the constant (R60, R63). -/
theorem decode_encodeI {rA rB : RegId} {v : Word} (hregs : ic.needRegids = true) (hconst : ic.needValC = true)
    (h : decodeFields c ic fn rA rB v = .ok i) : decode c (encodeI c ic fn rA rB v ++ rest) = .ok (i, rest) := by
  simp only [encodeI, List.cons_append, decode_cons hc hic, List.headD_cons, hiNibble_byteOf, loNibble_byteOf,
    Icode.length, hregs, hconst, if_true, List.tail_cons, longOf_longBytes, h]
  rfl

/-- Format J: the constant (R60, R63). -/
theorem decode_encodeJ {v : Word} (hregs : ic.needRegids = false) (hconst : ic.needValC = true)
    (h : ∀ rA rB, decodeFields c ic fn rA rB v = .ok i) : decode c (encodeJ c ic fn v ++ rest) = .ok (i, rest) := by
  simp only [encodeJ, List.cons_append, decode_cons hc hic, Icode.length, hregs, hconst, Bool.false_eq_true, if_false,
    longOf_longBytes, h]
  rfl

end Formats

/-- An instruction is read back from its own bytes, and the bytes after it are left (R60 to R69). -/
theorem decode_encode {c : Config} (hc : c.numbersDistinct = true) (i : Instr) (rest : List Byte) :
    decode c (encode c i ++ rest) = .ok (i, rest) := by
  cases i with
  | halt | nop | ret => exact decode_encodeO hc rfl rest rfl rfl fun _ _ _ => rfl
  | rrmovq | cmovle | cmovl | cmove | cmovne | cmovge | cmovg =>
    exact decode_encodeR hc rfl rest rfl rfl fun _ => by simp [decodeFields, decodeMove, cond_ofIfun_ifun hc]
  | irmovq | rmmovq | mrmovq => exact decode_encodeI hc rfl rest rfl rfl rfl
  | addq | subq | andq | xorq =>
    exact decode_encodeR hc rfl rest rfl rfl fun _ => by simp [decodeFields, decodeAlu, aluFn_ofIfun_ifun hc]
  | jmp | jle | jl | je | jne | jge | jg =>
    exact decode_encodeJ hc rfl rest rfl rfl fun _ _ => by simp [decodeFields, decodeJump, cond_ofIfun_ifun hc]
  | call => exact decode_encodeJ hc rfl rest rfl rfl fun _ _ => rfl
  | pushq | popq => exact decode_encodeR hc rfl rest rfl rfl fun _ => rfl

/-- Ten bytes is the longest instruction (R60). -/
theorem encode_length_le (c : Config) (i : Instr) : (encode c i).length ≤ 10 := by
  cases i <;> simp [encode, encodeO, encodeR, encodeI, encodeJ]

end Sys2Proof
end

section
/-! PROOFS. The fetch: the bytes at the fetch address, and that the record of what the decoder reads in them is the
fetch stage's (spec/41_fetch_stage.md R100 to R112). -/

namespace Sys2Proof.Machine

theorem fetchBytes_inBounds {c : Config} {pc : Word} (h : inBounds c pc = true) (m : Memory) :
    fetchBytes c m pc = (List.range 10).map fun k => memByte c m (pc + BitVec.ofNat 64 k) := by
  simp [fetchBytes, h, List.range_succ]

/-- An encoding that stands at a fetch address in bounds is what the decoder reads there. -/
theorem decode_fetchBytes_of_stored {c : Config} (hc : c.numbersDistinct = true) {m : Memory} {pc : Word} {i : Instr}
    (hpc : inBounds c pc = true)
    (h : ∀ k, k < (encode c i).length → memByte c m (pc + BitVec.ofNat 64 k) = (encode c i).getD k 0) :
    ∃ rest, decode c (fetchBytes c m pc) = .ok (i, rest) := by
  have hprefix : encode c i <+: fetchBytes c m pc := by
    rw [fetchBytes_inBounds hpc, List.prefix_iff_getElem]
    refine ⟨by simpa using encode_length_le c i, fun k hk => ?_⟩
    simp [h k hk, hk]
  obtain ⟨rest, hbytes⟩ := hprefix
  exact ⟨rest, hbytes ▸ decode_encode hc i rest⟩

/-- Settles O6: the decoder reads the instruction that stands at the fetch address. -/
theorem storedEncodingIsRun : Obligations.StoredEncodingIsRun := by
  unfold Obligations.StoredEncodingIsRun
  intro s i hpc hstored
  obtain ⟨rest, hdecode⟩ := decode_fetchBytes_of_stored machine_numbersDistinct hpc hstored
  simp only [step, bytesAtFetch, hdecode]

/-! ## The record of the decoded fields (R103 to R108) -/

/-- The record of an instruction whose bytes spell these fields, for every class and every ifun. -/
def fieldsRecord (ic : Icode) (fn : Nibble) (rA rB : RegId) (v : Word) (pc : Word) : FetchOut where
  stat   := fetchStat ic
  icode  := ic
  ifun   := fn
  rA     := if ic.needRegids then rA else rnone
  rB     := if ic.needRegids then rB else rnone
  valC   := if ic.needValC then v else 0
  valP   := fallThrough ic pc
  predPC := if ic = .jxx ∨ ic = .call then v else fallThrough ic pc

/-- The record of decoded fields: `recordOf` the instruction they spell, or that of the bytes rejected. -/
theorem decodedRecord_decodeFields (ic : Icode) (fn : Nibble) (rA rB : RegId) (v : Word) (bs : List Byte) (pc : Word) :
    decodedRecord ((decodeFields Config.machine ic fn rA rB v).map (·, bs)) pc = fieldsRecord ic fn rA rB v pc := by
  cases ic with
  | rrmovq =>
    rw [decodeFields, decodeMove]
    cases h : Cond.ofIfun Config.machine fn with
    | none => rfl
    | some r =>
      obtain rfl := ifun_of_cond_ofIfun h
      cases r <;> rfl
  | opq =>
    rw [decodeFields, decodeAlu]
    cases h : AluFn.ofIfun Config.machine fn with
    | none => rfl
    | some f =>
      obtain rfl := ifun_of_aluFn_ofIfun h
      cases f <;> rfl
  | jxx =>
    rw [decodeFields, decodeJump]
    cases h : Cond.ofIfun Config.machine fn with
    | none => rfl
    | some r =>
      obtain rfl := ifun_of_cond_ofIfun h
      cases r <;> rfl
  | _ => rfl

/-- The decoder's record of bytes that begin with `b`. -/
theorem decodedRecord_decode_cons (b : Byte) (bs : List Byte) (pc : Word) :
    decodedRecord (decode Config.machine (b :: bs)) pc =
      fieldsRecord (Icode.ofNibble Config.machine (hiNibble b)) (loNibble b) (hiNibble (bs.headD 0))
        (loNibble (bs.headD 0))
        (longOf fun k => (if (Icode.ofNibble Config.machine (hiNibble b)).needRegids then bs.tail else bs).getD k 0)
        pc :=
  decodedRecord_decodeFields ..

/-- The bytes after the first among those at the fetch address. -/
def laterBytes (c : Config) (m : Memory) (pc : Word) : List Byte :=
  (List.range 9).map fun k => memByte c m (pc + 1 + BitVec.ofNat 64 k)

theorem fetchBytes_eq_cons {c : Config} {pc : Word} (h : inBounds c pc = true) (m : Memory) :
    fetchBytes c m pc = memByte c m pc :: laterBytes c m pc := by
  simp [fetchBytes, laterBytes, h, List.range_succ, BitVec.add_assoc]

theorem laterBytes_headD (c : Config) (m : Memory) (pc : Word) :
    (laterBytes c m pc).headD 0 = memByte c m (pc + 1) := by
  simp [laterBytes, List.range_succ_eq_map]

/-- The constant begins after the register byte, where there is one (R106). -/
theorem longOf_laterBytes (c : Config) (m : Memory) (pc : Word) (regs : Bool) :
    (longOf fun k => (if regs then (laterBytes c m pc).tail else laterBytes c m pc).getD k 0) =
      longOf fun k => memByte c m (pc + 1 + BitVec.ofNat 64 regs.toNat + BitVec.ofNat 64 k) := by
  refine longOf_congr fun k hk => ?_
  cases regs with
  | false => simp [laterBytes, show k < 9 by omega]
  | true =>
    have haddr : pc + 1 + BitVec.ofNat 64 1 + BitVec.ofNat 64 k = pc + 1 + BitVec.ofNat 64 (k + 1) := by
      rw [Nat.add_comm, BitVec.ofNat_add, BitVec.add_assoc]
    rw [Bool.toNat_true, haddr]
    simp [laterBytes, hk]

/-- Fetch in bounds is the record of the fields at the fetch address (R101 to R108). -/
theorem fetchStage_inBounds {c : Config} {pc : Word} (h : inBounds c pc = true) (m : Memory) :
    let ic := Icode.ofNibble c (hiNibble (memByte c m pc))
    fetchStage c m pc =
      fieldsRecord ic (loNibble (memByte c m pc)) (hiNibble (memByte c m (pc + 1))) (loNibble (memByte c m (pc + 1)))
        (longOf fun k => memByte c m (pc + 1 + BitVec.ofNat 64 ic.needRegids.toNat + BitVec.ofNat 64 k)) pc := by
  simp only [fetchStage, h, if_true]
  cases Icode.ofNibble c (hiNibble (memByte c m pc)) <;> rfl

/-- The record of what the decoder reads at the fetch address is the one the stage rules give (R101 to R112). -/
theorem decodedRecord_fetchBytes (m : Memory) (pc : Word) :
    decodedRecord (decode Config.machine (fetchBytes Config.machine m pc)) pc = fetchStage Config.machine m pc := by
  by_cases h : inBounds Config.machine pc = true
  · rw [fetchBytes_eq_cons h, decodedRecord_decode_cons, laterBytes_headD, longOf_laterBytes, fetchStage_inBounds h]
  · simp [fetchBytes, fetchStage, h, decode, decodedRecord, rejectedRecord]

/-- The step is the clock cycle of the stage rules, which reads the bytes itself (R91). -/
theorem step_eq_cycle (s : State) : step s = cycle Config.machine s := by
  simp only [step_eq_issue, issue, cycle, clock, cycleState, lowPhase, bytesAtFetch, decodedRecord_fetchBytes]

/-- Settles O16: the fetch reads the memory that the Memory stage leaves, which is the next state's. -/
theorem fetchSeesThisCyclesStore : Obligations.FetchSeesThisCyclesStore := by
  unfold Obligations.FetchSeesThisCyclesStore
  intro s t hstep hD
  rw [step_eq_cycle] at hstep
  obtain ⟨-, rfl⟩ := clock_next_iff.1 hstep
  rw [cycleState_D, hD, latch_normal, cycleState_mem]

end Sys2Proof.Machine
end

section
/-! PROOFS. The decoder and the encoder (spec/30_encoding.md): the round trip both ways, and what the
decoder rejects. -/

namespace Sys2Proof

/-- Settles O1, by the round trip of each format. -/
theorem decodeOfEncodeIsTheInstruction : Obligations.DecodeOfEncodeIsTheInstruction := by
  unfold Obligations.DecodeOfEncodeIsTheInstruction
  intro c i rest hc
  exact decode_encode hc i rest

/-- Settles O4: the fixed bytes, by evaluation. -/
theorem spelledWordsDecode : Obligations.SpelledWordsDecode := by
  unfold Obligations.SpelledWordsDecode
  exact ⟨rfl, rfl, rfl, rfl, rfl, rfl, rfl, rfl, rfl, rfl, rfl, rfl, rfl⟩

/-! ## One spelling in bytes (R60 to R63, R71, R72) -/

/-- The bytes that spell these fields: the first byte, the register byte and the constant where the class has them
(R60). `encode_of_decodeFields` says that it is the encoder's spelling. -/
def encodeFields (c : Config) (ic : Icode) (fn : Nibble) (rA rB : RegId) (v : Word) : List Byte :=
  byteOf (ic.nibble c) fn ::
    ((if ic.needRegids then [byteOf rA rB] else []) ++ if ic.needValC then longBytes v else [])

theorem encode_of_decodeMove {c : Config} {fn : Nibble} {rA rB : RegId} {i : Instr}
    (h : decodeMove c fn rA rB = .ok i) : encode c i = encodeR c .rrmovq fn rA rB := by
  rw [decodeMove] at h
  cases hfn : Cond.ofIfun c fn with
  | none => rw [hfn] at h; cases h
  | some k =>
    obtain rfl := ifun_of_cond_ofIfun hfn
    cases k <;> (rw [hfn] at h; cases h; rfl)

theorem encode_of_decodeAlu {c : Config} {fn : Nibble} {rA rB : RegId} {i : Instr}
    (h : decodeAlu c fn rA rB = .ok i) : encode c i = encodeR c .opq fn rA rB := by
  rw [decodeAlu] at h
  cases hfn : AluFn.ofIfun c fn with
  | none => rw [hfn] at h; cases h
  | some k =>
    obtain rfl := ifun_of_aluFn_ofIfun hfn
    cases k <;> (rw [hfn] at h; cases h; rfl)

theorem encode_of_decodeJump {c : Config} {fn : Nibble} {dest : Word} {i : Instr}
    (h : decodeJump c fn dest = .ok i) : encode c i = encodeJ c .jxx fn dest := by
  rw [decodeJump] at h
  cases hfn : Cond.ofIfun c fn with
  | none => rw [hfn] at h; cases h
  | some k =>
    obtain rfl := ifun_of_cond_ofIfun hfn
    cases k <;> (rw [hfn] at h; cases h; rfl)

/-- An instruction that fields spell is encoded as these fields. -/
theorem encode_of_decodeFields {c : Config} {ic : Icode} {fn : Nibble} {rA rB : RegId} {v : Word} {i : Instr}
    (h : decodeFields c ic fn rA rB v = .ok i) : encode c i = encodeFields c ic fn rA rB v := by
  cases ic with
  | rrmovq => exact encode_of_decodeMove h
  | opq => exact encode_of_decodeAlu h
  | jxx => exact encode_of_decodeJump h
  | illegal n => cases h
  | _ => cases h; rfl

theorem length_encodeFields (c : Config) (ic : Icode) (fn : Nibble) (rA rB : RegId) (v : Word) :
    (encodeFields c ic fn rA rB v).length = ic.length := by
  cases ic <;> rfl

/-- Eight bytes are those of the u64 put together from them (R41, R63). -/
theorem longBytes_longOf_getD {bs : List Byte} (h : 8 ≤ bs.length) :
    longBytes (longOf fun k => bs.getD k 0) = bs.take 8 := by
  rw [longBytes_eq_map]
  refine List.ext_getElem (by simpa using h) fun k hk _ => ?_
  have hk8 : k < 8 := by simpa using hk
  simp [byteAt_longOf _ k hk8, show k < bs.length by omega]

/-- The constant among the bytes after the first (R63, R106). -/
def constantIn (ic : Icode) (bs : List Byte) : Word :=
  longOf fun k => (if ic.needRegids then bs.tail else bs).getD k 0

/-- Fields read from bytes that are not cut short spell the front of these bytes (R60 to R63). -/
theorem encodeFields_eq_take {c : Config} {b : Byte} {bs : List Byte} {ic : Icode}
    (hb : ic.nibble c = hiNibble b) (hlen : ic.length ≤ (b :: bs).length) :
    encodeFields c ic (loNibble b) (hiNibble (bs.headD 0)) (loNibble (bs.headD 0)) (constantIn ic bs) =
      (b :: bs).take ic.length := by
  rw [encodeFields, hb, byteOf_nibbles, byteOf_nibbles, constantIn]
  simp only [Icode.length, List.length_cons] at hlen ⊢
  cases hregs : ic.needRegids <;> cases hconst : ic.needValC <;>
    simp only [hregs, hconst, Bool.toNat_true, Bool.toNat_false] at hlen ⊢
  case false.false => rfl
  case false.true => exact congrArg (b :: ·) (longBytes_longOf_getD (bs := bs) (by omega))
  all_goals obtain ⟨b1, bs, rfl⟩ := List.exists_cons_of_length_pos (show 0 < bs.length by omega)
  case true.false => rfl
  case true.true =>
    rw [List.length_cons] at hlen
    exact congrArg (b :: b1 :: ·) (longBytes_longOf_getD (bs := bs) (by omega))

/-- What the decoder makes of the fields of the bytes `b :: bs`. -/
def decodeFirst (c : Config) (b : Byte) (bs : List Byte) : Except Reject Instr :=
  decodeFields c (Icode.ofNibble c (hiNibble b)) (loNibble b) (hiNibble (bs.headD 0)) (loNibble (bs.headD 0))
    (constantIn (Icode.ofNibble c (hiNibble b)) bs)

/-- The decoder leaves the bytes after those that its class counts (R72). -/
theorem decode_eq_map (c : Config) (b : Byte) (bs : List Byte) :
    decode c (b :: bs) =
      (decodeFirst c b bs).map fun i => (i, (b :: bs).drop (Icode.ofNibble c (hiNibble b)).length) := rfl

theorem decode_cons_eq_ok {c : Config} {b : Byte} {bs rest : List Byte} {i : Instr}
    (h : decode c (b :: bs) = .ok (i, rest)) :
    decodeFirst c b bs = .ok i ∧ rest = (b :: bs).drop (Icode.ofNibble c (hiNibble b)).length := by
  rw [decode_eq_map] at h
  cases hfirst : decodeFirst c b bs with
  | error r => rw [hfirst] at h; cases h
  | ok j => rw [hfirst] at h; cases h; exact ⟨rfl, rfl⟩

/-- Settles O2: the decoder drops from the bytes exactly the fields it reads, which spell the instruction. -/
theorem decodedBytesAreTheEncoding : Obligations.DecodedBytesAreTheEncoding := by
  unfold Obligations.DecodedBytesAreTheEncoding
  intro c bs i rest h hlen
  cases bs with
  | nil => cases h
  | cons b bs =>
    obtain ⟨hfirst, rfl⟩ := decode_cons_eq_ok h
    have hspelled := encode_of_decodeFields hfirst
    rw [hspelled, length_encodeFields] at hlen
    rw [hspelled, encodeFields_eq_take (nibble_ofNibble c _) hlen]
    exact List.take_append_drop ..

/-! ## What the decoder rejects (R70, R71) -/

theorem decodeMove_eq_error_iff {c : Config} {fn : Nibble} {rA rB : RegId} {r : Reject} :
    decodeMove c fn rA rB = .error r ↔ Cond.ofIfun c fn = none ∧ r = .undefinedMoveCondition fn rA rB := by
  rw [decodeMove]
  cases Cond.ofIfun c fn with
  | none => simp [eq_comm]
  | some k => cases k <;> simp

theorem decodeAlu_eq_error_iff {c : Config} {fn : Nibble} {rA rB : RegId} {r : Reject} :
    decodeAlu c fn rA rB = .error r ↔ AluFn.ofIfun c fn = none ∧ r = .undefinedAluFunction fn rA rB := by
  rw [decodeAlu]
  cases AluFn.ofIfun c fn with
  | none => simp [eq_comm]
  | some k => cases k <;> simp

theorem decodeJump_eq_error_iff {c : Config} {fn : Nibble} {dest : Word} {r : Reject} :
    decodeJump c fn dest = .error r ↔ Cond.ofIfun c fn = none ∧ r = .undefinedJumpCondition fn dest := by
  rw [decodeJump]
  cases Cond.ofIfun c fn with
  | none => simp [eq_comm]
  | some k => cases k <;> simp

/-- Everything the decoder rejects, by name: an illegal class, and a function or relation without a number. -/
theorem decodeFields_eq_error_iff {c : Config} {ic : Icode} {fn : Nibble} {rA rB : RegId} {v : Word} {r : Reject} :
    decodeFields c ic fn rA rB v = .error r ↔
      (ic.legal = false ∧ r = .illegalOpcode ic fn) ∨
      (ic = .opq ∧ AluFn.ofIfun c fn = none ∧ r = .undefinedAluFunction fn rA rB) ∨
      (ic = .rrmovq ∧ Cond.ofIfun c fn = none ∧ r = .undefinedMoveCondition fn rA rB) ∨
      (ic = .jxx ∧ Cond.ofIfun c fn = none ∧ r = .undefinedJumpCondition fn v) := by
  cases ic with
  | rrmovq => simp [decodeFields, decodeMove_eq_error_iff, Icode.legal]
  | opq => simp [decodeFields, decodeAlu_eq_error_iff, Icode.legal]
  | jxx => simp [decodeFields, decodeJump_eq_error_iff, Icode.legal]
  | illegal n => simp [decodeFields, Icode.legal, eq_comm]
  | _ => simp [decodeFields, Icode.legal]

theorem decode_cons_eq_error_iff {c : Config} {b : Byte} {bs : List Byte} {r : Reject} :
    decode c (b :: bs) = .error r ↔ decodeFirst c b bs = .error r :=
  ⟨Machine.eq_error_of_map, fun h => congrArg (Except.map _) h⟩

/-- The machine's numbers of the classes (G1). -/
theorem machine_ofNibble (n : Nibble) :
    ((Icode.ofNibble Config.machine n).legal = false ↔ 0xC ≤ n.toNat) ∧
    (Icode.ofNibble Config.machine n = .opq ↔ n.toNat = 6) ∧
    (Icode.ofNibble Config.machine n = .rrmovq ↔ n.toNat = 2) ∧
    (Icode.ofNibble Config.machine n = .jxx ↔ n.toNat = 7) := by
  decide +revert

/-- The machine's numbers of the ALU functions are 0 to 3 (G9). -/
theorem machine_aluFn_ofIfun_eq_none_iff (fn : Nibble) :
    AluFn.ofIfun Config.machine fn = none ↔ 4 ≤ fn.toNat := by
  decide +revert

/-- The machine's numbers of the relations are 0 to 6 (G9). -/
theorem machine_cond_ofIfun_eq_none_iff (fn : Nibble) : Cond.ofIfun Config.machine fn = none ↔ 7 ≤ fn.toNat := by
  decide +revert

/-- Settles O3, by the decoder's rejections at the machine's numbers. -/
theorem bytesAreRejectedExactlyByName : Obligations.BytesAreRejectedExactlyByName := by
  unfold Obligations.BytesAreRejectedExactlyByName
  refine ⟨rfl, fun b bs => ?_⟩
  obtain ⟨hillegal, hopq, hmove, hjump⟩ := machine_ofNibble (hiNibble b)
  simp [decode_cons_eq_error_iff, decodeFirst, decodeFields_eq_error_iff, machine_aluFn_ofIfun_eq_none_iff,
    machine_cond_ofIfun_eq_none_iff, hillegal, hopq, hmove, hjump]

end Sys2Proof
end

section
/-! PROOFS. One instruction alone in the pipeline, cycle by cycle: its record enters D, E, M and W in turn, while what
stands ahead of it are NOPs and what follows it is left open (spec/47_instructions_move_alu.md R230). -/

namespace Sys2Proof.Machine

/-! ## A pipeline register that holds a NOP without an effect -/

/-- A NOP in E with status OK and no destination. -/
def QuietE (E : EReg) : Prop := E.stat = .aok ∧ E.icode = .nop ∧ E.dstE = rnone ∧ E.dstM = rnone

/-- A NOP in M with status OK and no destination. -/
def QuietM (M : MReg) : Prop := M.stat = .aok ∧ M.icode = .nop ∧ M.dstE = rnone ∧ M.dstM = rnone

/-- A NOP in W with status OK and no destination. -/
def QuietW (W : WReg) : Prop := W.stat = .aok ∧ W.icode = .nop ∧ W.dstE = rnone ∧ W.dstM = rnone

section Quiet

variable {c : Config} {s : State}

theorem quietE_pendingE (hstat : s.D.stat = .aok) (hicode : s.D.icode = .nop) :
    QuietE (pendingE s.D (decOut c s)) :=
  ⟨hstat, hicode, by simp [pendingE, decOut, decodeStage, hicode, dstE], by
    simp [pendingE, decOut, decodeStage, hicode, dstM]⟩

theorem quietM_pendingM (h : QuietE s.E) : QuietM (pendingM s.E (exeOut c s)) := by
  obtain ⟨hstat, hicode, hdE, hdM⟩ := h
  exact ⟨hstat, hicode, by simp [pendingM, exeOut, executeStage, dstEAfterCond, hicode, hdE], hdM⟩

/-- A NOP in M accesses no memory. -/
theorem memOut_of_quietM (h : QuietM s.M) : memOut c s = ⟨false, 0, s.mem, .aok⟩ := by
  obtain ⟨hstat, hicode, -, -⟩ := h
  simp [memOut, memoryStage, memError, hicode, hstat, readsMem, writesMem]

theorem quietW_pendingW (h : QuietM s.M) : QuietW (pendingW s.M (memOut c s)) := by
  exact ⟨by simp [pendingW, memOut_of_quietM h], h.2⟩

/-- A NOP in W commits nothing and does not stop the machine. -/
theorem cycleState_of_quietW {fetch : Memory → Word → FetchOut} (h : QuietW s.W) :
    (cycleState c fetch s).regs = s.regs ∧ (cycleState c fetch s).stopped = s.stopped ∧
      (cycleState c fetch s).exitStatus = s.exitStatus := by
  obtain ⟨hstat, hicode, hdE, hdM⟩ := h
  have hstop : wStop s.W = false := by simp [wStop, hstat, hicode, Stat.abnormal]
  simp [cycleState_regs, cycleState_stopped, cycleState_exitStatus, hstop, commit, hdE, hdM]

/-- A NOP in E writes no flag. -/
theorem exeOut_flags_of_quietE (h : QuietE s.E) : (exeOut c s).flags = s.flags := by
  simp [exeOut, executeStage, setCc, h.2.1]

/-- With a NOP in E there is neither a load-use hazard nor a mispredicted jump, so E takes its pending input (R195). -/
theorem eCtlNow_of_quietE (h : QuietE s.E) : eCtlNow c s = .normal := by
  simp [eCtlNow, eCtl, loadUseNow, loadUse, mispredictNow, mispredict, h.2.1]

/-- With an OK status in the Memory stage and in W, M takes its pending input (R196). -/
theorem mCtlNow_of_quiet (hM : QuietM s.M) (hW : QuietW s.W) : mCtlNow c s = .normal := by
  simp [mCtlNow, mCtl, memOut_of_quietM hM, hW.1, Stat.abnormal]

end Quiet

/-! ## What each stage makes of the instruction alone -/

/-- Nothing to forward. -/
def noForwards : Forwards := ⟨⟨rnone, 0⟩, ⟨rnone, 0⟩, ⟨rnone, 0⟩, ⟨rnone, 0⟩, ⟨rnone, 0⟩⟩

/-- Sources without an id forward nothing, whatever they carry (R125). -/
theorem fwd_eq_operand {c : Config} {f : Forwards} (x : Regs) (r : RegId) (he : f.e.id = rnone)
    (hmE : f.mE.id = rnone) (hmM : f.mM.id = rnone) (hwM : f.wM.id = rnone) (hwE : f.wE.id = rnone) :
    fwd c f x r = operand x r := by
  unfold fwd operand Forwards.chain
  split
  · rfl
  · next hr => cases c.fwdMOrder <;> simp [firstMatch, hr, he, hmE, hmM, hwM, hwE]

theorem fwd_noForwards (c : Config) (x : Regs) (r : RegId) : fwd c noForwards x r = operand x r :=
  fwd_eq_operand x r rfl rfl rfl rfl rfl

/-- With NOPs in E, M and W, Decode reads the register file alone. -/
theorem decOut_of_quiet {c : Config} {s : State} (hE : QuietE s.E) (hM : QuietM s.M) (hW : QuietW s.W) :
    decOut c s = decodeStage c s.regs noForwards s.D := by
  have hfwd : ∀ r, fwd c (forwards (exeOut c s) (memOut c s) s.M s.W) s.regs r = fwd c noForwards s.regs r :=
    fun r => by
      rw [fwd_noForwards]
      exact fwd_eq_operand _ _ (quietM_pendingM hE).2.2.1 hM.2.2.1 hM.2.2.2 hW.2.2.2 hW.2.2.1
  simp only [decOut, decodeStage, valA, valB, hfwd]

section Solo

variable (s : State) (r : FetchOut)

/-- E, when the record `r` is decoded in `s` with nothing in flight ahead of it (R129). -/
def soloE : EReg := pendingE (pendingD r) (decodeStage Config.machine s.regs noForwards (pendingD r))

/-- What Execute then computes (R140 to R158). -/
def soloExe : ExeOut := executeStage Config.machine s.flags (soloE s r) .aok .aok

/-- M after that (R157). -/
def soloM : MReg := pendingM (soloE s r) (soloExe s r)

/-- What the Memory stage then computes (R170 to R175). -/
def soloMem : MemOut := memoryStage Config.machine s.mem (soloM s r)

/-- W after that (R176). -/
def soloW : WReg := pendingW (soloM s r) (soloMem s r)

/-! ## The four cycles -/

/-- What no cycle before the last changes: registers, `stopped` and `exit_status`. -/
structure Uncommitted (t : State) : Prop where
  regs       : t.regs = s.regs
  stopped    : t.stopped = false
  exitStatus : t.exitStatus = s.exitStatus

/-- One cycle after `s`: the record is in D. -/
structure SoloInD (t : State) : Prop extends Uncommitted s t where
  flags  : t.flags = s.flags
  mem    : t.mem = s.mem
  D      : t.D = pendingD r
  quietE : QuietE t.E
  quietM : QuietM t.M
  quietW : QuietW t.W
  fetch  : fetchPC t = r.predPC

/-- Two cycles after `s`: the instruction is in E. -/
structure SoloInE (t : State) : Prop extends Uncommitted s t where
  flags  : t.flags = s.flags
  mem    : t.mem = s.mem
  E      : t.E = soloE s r
  quietM : QuietM t.M
  quietW : QuietW t.W

/-- Three cycles after `s`: the instruction is in M, and has written the flags. -/
structure SoloInM (t : State) : Prop extends Uncommitted s t where
  flags  : t.flags = (soloExe s r).flags
  mem    : t.mem = s.mem
  M      : t.M = soloM s r
  quietW : QuietW t.W

/-- Four cycles after `s`: the instruction is in W, and has accessed memory. Behind an abnormal status M holds a bubble
and no flag has changed since (R93, R153, R196). -/
structure SoloInW (t : State) : Prop extends Uncommitted s t where
  mem         : t.mem = (soloMem s r).mem
  W           : t.W = soloW s r
  behindFault : (soloW s r).stat ≠ .aok → t.M = .bubble ∧ t.flags = (soloExe s r).flags

end Solo

section Cycles

variable {s t : State} {r : FetchOut}

/-- A running machine's step is the clock cycle of the stage rules (R91). -/
theorem step_running (h : t.stopped = false) :
    step t = .next (cycleState Config.machine (fetchStage Config.machine) t) := by
  rw [step_eq_cycle]
  exact clock_running h

/-- A cycle with a NOP in W leaves uncommitted what is. -/
theorem uncommitted_cycleState {fetch : Memory → Word → FetchOut} (h : Uncommitted s t) (hW : QuietW t.W) :
    Uncommitted s (cycleState Config.machine fetch t) := by
  obtain ⟨hregs, hstopped, hexit⟩ := cycleState_of_quietW (c := Config.machine) (fetch := fetch) hW
  exact ⟨hregs.trans h.regs, hstopped.trans h.stopped, hexit.trans h.exitStatus⟩

/-- With no RETURN in D, E or M and NOPs in E, F and D take their pending inputs (R193, R194). -/
theorem fCtlNow_dCtlNow_of_quiet {c : Config} (hD : t.D.icode ≠ .ret) (hE : QuietE t.E) (hM : QuietM t.M) :
    fCtlNow c t = .normal ∧ dCtlNow c t = .normal := by
  have hload : loadUseNow c t = false := by simp [loadUseNow, loadUse, hE.2.1]
  have hret : retDrainNow t = false := by simp [retDrainNow, retDrain, hD, hE.2.1, hM.2.1]
  have hmis : mispredictNow c t = false := by simp [mispredictNow, mispredict, hE.2.1]
  refine ⟨by simp [fCtlNow, fCtl, hload, hret], ?_⟩
  cases hdrain : c.retDrainD <;> simp [dCtlNow, dCtl, hdrain, hload, hret, hmis]

/-- With NOPs in M and W, Fetch reads at the prediction (R100). -/
theorem fetchPC_of_quiet (hM : QuietM t.M) (hW : QuietW t.W) : fetchPC t = t.F.predPC := by
  simp [fetchPC, selectPC, hM.2.1, hW.2.1]

/-- With nothing in flight Fetch's record enters D, and Fetch goes on from its prediction. -/
theorem soloInD_of_issue {record : Word → FetchOut} (hs : Ready s) :
    ∃ t, issue record s = .next t ∧ SoloInD s (record (fetchPC s)) t := by
  obtain ⟨hrun, ⟨hDstat, hDicode⟩, hE, hM, hW⟩ := hs
  obtain ⟨hF, hD⟩ := fCtlNow_dCtlNow_of_quiet (c := Config.machine) (by simp [hDicode]) hE hM
  refine ⟨_, clock_running hrun, uncommitted_cycleState ⟨rfl, hrun, rfl⟩ hW, ?flags, ?mem, ?D, ?E, ?M, ?W, ?fetch⟩
  case flags => exact exeOut_flags_of_quietE hE
  case mem => rw [cycleState_mem, memOut_of_quietM hM]
  case D => rw [cycleState_D, hD, latch_normal]
  case E =>
    rw [cycleState_E, eCtlNow_of_quietE hE, latch_normal]
    exact quietE_pendingE hDstat hDicode
  case M =>
    rw [cycleState_M, mCtlNow_of_quiet hM hW, latch_normal]
    exact quietM_pendingM hE
  case W => exact quietW_pendingW hM
  case fetch =>
    rw [fetchPC_of_quiet]
    · rw [cycleState_F, hF, latch_normal]
    · rw [cycleState_M, mCtlNow_of_quiet hM hW, latch_normal]
      exact quietM_pendingM hE
    · exact quietW_pendingW hM

/-- The instruction enters E with its operands from the register file. -/
theorem SoloInD.entersE (h : SoloInD s r t) : ∃ u, step t = .next u ∧ SoloInE s r u := by
  refine ⟨_, step_running h.stopped, uncommitted_cycleState h.toUncommitted h.quietW, ?flags, ?mem, ?E, ?M, ?W⟩
  case flags => exact (exeOut_flags_of_quietE h.quietE).trans h.flags
  case mem => rw [cycleState_mem, memOut_of_quietM h.quietM, h.mem]
  case E =>
    rw [cycleState_E, eCtlNow_of_quietE h.quietE, latch_normal, decOut_of_quiet h.quietE h.quietM h.quietW, h.D,
      h.regs]
    rfl
  case M =>
    rw [cycleState_M, mCtlNow_of_quiet h.quietM h.quietW, latch_normal]
    exact quietM_pendingM h.quietE
  case W => exact quietW_pendingW h.quietM

/-- The instruction enters M. -/
theorem SoloInE.entersM (h : SoloInE s r t) : ∃ u, step t = .next u ∧ SoloInM s r u := by
  have hexe : exeOut Config.machine t = soloExe s r := by
    rw [exeOut, memOut_of_quietM h.quietM, h.quietW.1, h.E, h.flags, soloExe]
  refine ⟨_, step_running h.stopped, uncommitted_cycleState h.toUncommitted h.quietW, ?flags, ?mem, ?M, ?W⟩
  case flags => rw [cycleState_flags, hexe]
  case mem => rw [cycleState_mem, memOut_of_quietM h.quietM, h.mem]
  case M => rw [cycleState_M, mCtlNow_of_quiet h.quietM h.quietW, latch_normal, hexe, h.E, soloM]
  case W => exact quietW_pendingW h.quietM

/-- Behind an abnormal status in the Memory stage or in W no flag is written (R153). -/
theorem exeOut_flags_of_abnormal {c : Config} (h : (memOut c t).stat ≠ .aok ∨ t.W.stat ≠ .aok) :
    (exeOut c t).flags = t.flags := by
  have hcc : setCc t.E.icode (memOut c t).stat t.W.stat = false := by
    rcases h with h | h <;> simp [setCc, Stat.abnormal_iff.2 h]
  simp [exeOut, executeStage, hcc]

/-- The instruction enters W. -/
theorem SoloInM.entersW (h : SoloInM s r t) : ∃ u, step t = .next u ∧ SoloInW s r u := by
  have hmem : memOut Config.machine t = soloMem s r := by rw [memOut, h.mem, h.M, soloMem]
  refine ⟨_, step_running h.stopped, uncommitted_cycleState h.toUncommitted h.quietW, ?mem, ?W,
    fun hstat => ⟨?M, ?flags⟩⟩
  case mem => rw [cycleState_mem, hmem]
  case W => rw [cycleState_W, hmem, h.M, soloW]
  case M => exact cycleState_M_of_abnormal (hmem ▸ hstat)
  case flags => rw [cycleState_flags, exeOut_flags_of_abnormal (.inl (hmem ▸ hstat)), h.flags]

/-- An instruction with status OK that is no HALT commits (R181). -/
theorem SoloInW.commits (h : SoloInW s r t) (hstat : (soloW s r).stat = .aok) (hhalt : r.icode ≠ .halt) :
    ∃ u, step t = .next u ∧ u.regs = commit (soloW s r) s.regs ∧ u.stopped = false ∧ u.exitStatus = s.exitStatus := by
  have hstop : wStop t.W = false := by
    rw [h.W, wStop, hstat]
    exact beq_false_of_ne hhalt
  refine ⟨_, step_running h.stopped, ?_, ?_, ?_⟩
  · rw [cycleState_regs, hstop, h.W, h.regs]
    rfl
  · simp [cycleState_stopped, hstop, h.stopped]
  · simp [cycleState_exitStatus, hstop, h.exitStatus]

/-- An instruction with an abnormal status stops the machine, and nothing else changes (R183, R266). -/
theorem SoloInW.stops (h : SoloInW s r t) (hstat : (soloW s r).stat ≠ .aok) :
    ∃ u, step t = .next u ∧ u.stopped = true ∧ u.exitStatus = some (soloW s r).stat ∧ u.regs = s.regs ∧
      u.flags = (soloExe s r).flags ∧ u.mem = (soloMem s r).mem := by
  obtain ⟨hM, hflags⟩ := h.behindFault hstat
  have hstop : wStop t.W = true := by simp [wStop, h.W, Stat.abnormal_iff.2 hstat]
  have hquiet : QuietM t.M := hM ▸ ⟨rfl, rfl, rfl, rfl⟩
  refine ⟨_, step_running h.stopped, ?_, ?_, ?_, ?_, ?_⟩
  · simp [cycleState_stopped, hstop]
  · rw [cycleState_exitStatus, hstop, h.W]
    rfl
  · simp [cycleState_regs, hstop, h.regs]
  · rw [cycleState_flags, exeOut_flags_of_abnormal (.inr (h.W ▸ hstat)), hflags]
  · rw [cycleState_mem, memOut_of_quietM hquiet, h.mem]

/-! ## The passage -/

/-- From a ready state the instruction passes through all four registers. -/
theorem soloPassage_of_ready {record : Word → FetchOut} (hs : Ready s) (hr : record (fetchPC s) = r) :
    ∃ t1 t2 t3 t4, (issue record s = .next t1 ∧ step t1 = .next t2 ∧ step t2 = .next t3 ∧ step t3 = .next t4) ∧
      SoloInD s r t1 ∧ SoloInE s r t2 ∧ SoloInM s r t3 ∧ SoloInW s r t4 := by
  subst hr
  obtain ⟨t1, h1, hD⟩ := soloInD_of_issue (record := record) hs
  obtain ⟨t2, h2, hE⟩ := hD.entersE
  obtain ⟨t3, h3, hM⟩ := hE.entersM
  obtain ⟨t4, h4, hW⟩ := hM.entersW
  exact ⟨t1, t2, t3, t4, ⟨h1, h2, h3, h4⟩, hD, hE, hM, hW⟩

/-- The address Fetch reads from, after `lost` lost cycles, for an instruction alone in the pipeline: the prediction, the
fall-through address of a jump not taken, the loaded address of a RETURN (R100, R287). -/
def SoloNextPC (s : State) (r : FetchOut) (pc : Word) (lost : Nat) : Prop :=
  (lost = 0 → r.predPC = pc) ∧
  (lost = 2 → r.icode = .jxx ∧ (soloExe s r).cnd = false ∧ r.valP = pc) ∧
  (lost = 3 → r.icode = .ret ∧ (soloW s r).valM = pc)

/-- An instruction whose status stays OK completes with what the stages make of it alone. -/
theorem completesFrom_issue {record : Word → FetchOut} {a : SeqState} {lost : Nat} (hs : Ready s)
    (hr : record (fetchPC s) = r) (hstat : (soloW s r).stat = .aok) (hhalt : r.icode ≠ .halt)
    (hregs : commit (soloW s r) s.regs = a.regs) (hflags : (soloExe s r).flags = a.flags)
    (hmem : (soloMem s r).mem = a.mem) (hpc : SoloNextPC s r a.pc lost) :
    CompletesFrom (issue record s) s a lost := by
  obtain ⟨t1, t2, t3, t4, ⟨h1, h2, h3, h4⟩, hD, hE, hM, hW⟩ := soloPassage_of_ready hs hr
  obtain ⟨t5, h5, hregs5, hstop5, hexit5⟩ := hW.commits hstat hhalt
  obtain ⟨hpc0, hpc2, hpc3⟩ := hpc
  refine ⟨t1, t2, t3, t4, t5, ⟨h1, h2, h3, h4, h5⟩,
    ⟨hD.regs, hE.regs, hM.regs, hW.regs, hregs5.trans hregs⟩, ⟨hD.flags, hE.flags, hM.flags.trans hflags⟩,
    ⟨hD.mem, hE.mem, hM.mem, hW.mem.trans hmem⟩, ⟨hstop5, hexit5⟩, fun hlost => ?predicted,
    fun hlost => ?fallThrough, fun hlost => ?returned⟩
  case predicted => exact hD.fetch.trans (hpc0 hlost)
  case fallThrough =>
    obtain ⟨hjxx, hcnd, hvalP⟩ := hpc2 hlost
    have hMjxx : t3.M.icode = .jxx := hM.M ▸ hjxx
    have hMcnd : t3.M.cnd = false := hM.M ▸ hcnd
    rw [fetchPC, selectPC, if_pos ⟨hMjxx, hMcnd⟩, hM.M]
    simpa [soloM, pendingM, soloE, pendingE, decodeStage, valA, pendingD, hjxx] using hvalP
  case returned =>
    obtain ⟨hret, hvalM⟩ := hpc3 hlost
    refine or_iff_not_imp_left.2 fun hjump => ?_
    have hWret : t4.W.icode = .ret := hW.W ▸ hret
    rw [fetchPC, selectPC, if_neg hjump, if_pos hWret, hW.W, hvalM]

/-- An instruction whose status becomes abnormal, and that changes no flag and no byte, stops the machine. -/
theorem raisesFrom_issue {record : Word → FetchOut} {status : Stat} (hs : Ready s) (hr : record (fetchPC s) = r)
    (hstatus : (soloW s r).stat = status) (habnormal : status ≠ .aok) (hflags : (soloExe s r).flags = s.flags)
    (hmem : (soloMem s r).mem = s.mem) : RaisesFrom (issue record s) s status := by
  subst hstatus
  obtain ⟨t1, t2, t3, t4, ⟨h1, h2, h3, h4⟩, -, -, -, hW⟩ := soloPassage_of_ready hs hr
  obtain ⟨t5, h5, hstop, hexit, hregs, hflags5, hmem5⟩ := hW.stops habnormal
  exact ⟨t1, t2, t3, t4, t5, ⟨h1, h2, h3, h4, h5⟩, hstop, hexit, hregs, hflags5.trans hflags, hmem5.trans hmem⟩

/-- A move whose condition is false commits nothing (R152). -/
theorem commit_soloW_of_cancelled (hmove : r.icode = .rrmovq) (hcnd : (soloExe s r).cnd = false) :
    commit (soloW s r) s.regs = s.regs := by
  have hdstE : (soloW s r).dstE = rnone := if_pos ⟨hmove, hcnd⟩
  have hdstM : (soloW s r).dstM = rnone := by
    change dstM r.icode r.rA = rnone
    rw [hmove, dstM]
  rw [commit, hdstE, hdstM, regWrite_rnone, regWrite_rnone]

end Cycles

/-! ## Bytes that are none of the 27 instructions (R70, R71, R103) -/

/-- A function without a number gives 0 (D14). -/
theorem alu_of_undefined {c : Config} {fn : Nibble} (hfn : AluFn.ofIfun c fn = none) (a b : Word) :
    alu c fn a b = 0 := by rw [alu, hfn]

/-- A function without a number leaves OF and gives the other flags of its 0 (D5, D14). -/
theorem aluFlags_of_undefined {fn : Nibble} (hfn : AluFn.ofIfun Config.machine fn = none) (a b : Word) (f : Flags) :
    aluFlags Config.machine fn a b (alu Config.machine fn a b) f = ⟨true, false, f.of⟩ := by
  rw [alu_of_undefined hfn, aluFlags, hfn]
  rfl

/-- A relation without a number is false (D14). -/
theorem exeCnd_of_undefined {c : Config} {E : EReg} (hfn : Cond.ofIfun c E.ifun = none) (f : Flags) :
    exeCnd c E f = false := by
  have hcond : cond c E.ifun f = false := by rw [cond, hfn]
  unfold exeCnd
  split
  case h_1 | h_2 => exact hcond
  all_goals rfl

theorem soloExe_cnd_of_undefined {s : State} {r : FetchOut} (hfn : Cond.ofIfun Config.machine r.ifun = none) :
    (soloExe s r).cnd = false := exeCnd_of_undefined (E := soloE s r) hfn s.flags

section Rejected

variable {s : State} (hs : Ready s)
include hs

theorem raisesFrom_outOfBounds : RaisesFrom (execRejected .noFirstByte s) s .adr :=
  raisesFrom_issue hs rfl rfl nofun rfl rfl

theorem raisesFrom_illegalOpcode {ic : Icode} (hic : ic.legal = false) (fn : Nibble) :
    RaisesFrom (execRejected (.illegalOpcode ic fn) s) s .ins := by
  cases ic with
  | illegal n => exact raisesFrom_issue hs rfl rfl nofun rfl rfl
  | _ => cases hic

/-- A function without a number gives 0 and the flags of 0, OF as it was (D14). -/
theorem completesFrom_undefinedAluFunction {fn : Nibble} (hfn : AluFn.ofIfun Config.machine fn = none)
    (rA rB : RegId) :
    CompletesFrom (execRejected (.undefinedAluFunction fn rA rB) s) s
      ⟨regWrite s.regs rB 0, ⟨true, false, s.flags.of⟩, s.mem, fetchPC s + 2⟩ 0 := by
  refine completesFrom_issue hs rfl rfl nofun ?regs ?flags rfl ⟨fun _ => rfl, nofun, nofun⟩
  case regs => exact congrArg (regWrite s.regs rB) (alu_of_undefined hfn _ _)
  case flags => exact aluFlags_of_undefined hfn _ _ s.flags

theorem completesFrom_undefinedMoveCondition {fn : Nibble} (hfn : Cond.ofIfun Config.machine fn = none)
    (rA rB : RegId) :
    CompletesFrom (execRejected (.undefinedMoveCondition fn rA rB) s) s
      ⟨s.regs, s.flags, s.mem, fetchPC s + 2⟩ 0 := by
  refine completesFrom_issue hs rfl rfl nofun ?regs rfl rfl ⟨fun _ => rfl, nofun, nofun⟩
  exact commit_soloW_of_cancelled rfl (soloExe_cnd_of_undefined hfn)

theorem completesFrom_undefinedJumpCondition {fn : Nibble} (hfn : Cond.ofIfun Config.machine fn = none)
    (dest : Word) :
    CompletesFrom (execRejected (.undefinedJumpCondition fn dest) s) s
      ⟨s.regs, s.flags, s.mem, fetchPC s + 9⟩ 2 :=
  completesFrom_issue hs rfl rfl nofun rfl rfl rfl ⟨nofun, fun _ => ⟨rfl, soloExe_cnd_of_undefined hfn, rfl⟩, nofun⟩

end Rejected

/-- Settles O54, by the passage of an instruction alone in the pipeline, for each reason to reject bytes. -/
theorem rejectedBytesPass : Obligations.RejectedBytesPass := by
  unfold Obligations.RejectedBytesPass
  intro s hs
  exact ⟨raisesFrom_outOfBounds hs, fun _ fn hic => raisesFrom_illegalOpcode hs hic fn,
    fun _ rA rB hfn => completesFrom_undefinedAluFunction hs hfn rA rB,
    fun _ rA rB hfn => completesFrom_undefinedMoveCondition hs hfn rA rB,
    fun _ dest hfn => completesFrom_undefinedJumpCondition hs hfn dest⟩

end Sys2Proof.Machine
end

section
/-! PROOFS. The clock cycle: the step against the stage rules, and the order in which Writeback's effects stand in it
(spec/40_pipeline_registers_and_clock.md R91, R93). -/

namespace Sys2Proof.Machine

/-- Settles O7: the decoder's record is the fetch stage's (`decodedRecord_fetchBytes`), and every meaning is one
clock cycle over its record. -/
theorem stepIsTheClockCycleOfTheStageRules : Obligations.StepIsTheClockCycleOfTheStageRules := by
  unfold Obligations.StepIsTheClockCycleOfTheStageRules
  exact step_eq_cycle

/-- Settles O5: the two answers of the decoder are the two arms of the step. -/
theorem stepRunsTheDecodedInstruction : Obligations.StepRunsTheDecodedInstruction := by
  unfold Obligations.StepRunsTheDecodedInstruction
  intro s
  constructor
  · intro i rest hdecode
    simp only [step, hdecode]
  · intro r hdecode
    simp only [step, hdecode]

/-! ## Where Writeback writes the registers (R93, item 1) -/

/-- The commit writes the two destinations of W alone (R181). -/
theorem regRead_commit_ne {W : WReg} {x : Regs} {r : RegId} (hE : r ≠ W.dstE) (hM : r ≠ W.dstM) :
    regRead (commit W x) r = regRead x r := by
  rw [commit, regRead_regWrite_ne hM, regRead_regWrite_ne hE]

/-- The register file is read only for an id that no source forwards (R125). -/
theorem firstMatch_congr {x y : Regs} {r : RegId} {ps : List Source}
    (h : (∀ p ∈ ps, r ≠ p.id) → regRead x r = regRead y r) : firstMatch x r ps = firstMatch y r ps := by
  induction ps with
  | nil => exact h (by simp)
  | cons p ps ih =>
    unfold firstMatch
    split
    · rfl
    · next hne => exact ih fun hps => h (List.forall_mem_cons.2 ⟨hne, hps⟩)

/-- Both entries of W stand in the forwarding chain, under either order of M's (R125). -/
theorem mem_chain_of_W (c : Config) (f : Forwards) : f.wE ∈ f.chain c ∧ f.wM ∈ f.chain c := by
  unfold Forwards.chain
  cases c.fwdMOrder <;> simp

/-- An id that the commit writes is forwarded from W, so the register file is not read for it. -/
theorem fwd_commit {W : WReg} {f : Forwards} (hE : f.wE.id = W.dstE) (hM : f.wM.id = W.dstM) (c : Config) (x : Regs)
    (r : RegId) : fwd c f (commit W x) r = fwd c f x r := by
  obtain ⟨hwE, hwM⟩ := mem_chain_of_W c f
  have hmatch : firstMatch (commit W x) r (f.chain c) = firstMatch x r (f.chain c) :=
    firstMatch_congr fun hnone => regRead_commit_ne (hE ▸ hnone _ hwE) (hM ▸ hnone _ hwM)
  rw [fwd, fwd, hmatch]

/-- Settles O20: Decode reads registers through `fwd` alone, which does not see the commit. -/
theorem writebackPlacementIsUnobservable : Obligations.WritebackPlacementIsUnobservable := by
  unfold Obligations.WritebackPlacementIsUnobservable
  intro c s f hwE hwM
  have hfwd := fwd_commit (W := s.W) (congrArg Source.id hwE) (congrArg Source.id hwM)
  simp only [decodeStage, valA, valB, hfwd]

/-! ## The stop cycle (R93, item 2) -/

/-- Settles O33: an abnormal W stops the machine without a commit and holds back the flags, and the bubble that
`Legal` has behind it in M stores nothing. -/
theorem stopCycleChangesNothingArchitectural : Obligations.StopCycleChangesNothingArchitectural := by
  unfold Obligations.StopCycleChangesNothingArchitectural
  intro s t hlegal hstep hstat
  obtain ⟨-, -, -, -, -, hbubble, -⟩ := legal_iff.1 hlegal
  have hstop : wStop s.W = true := by simp [wStop, hstat]
  have hquiet : QuietM s.M := hbubble hstat ▸ ⟨rfl, rfl, rfl, rfl⟩
  obtain ⟨-, record, rfl⟩ := step_next hstep
  refine ⟨?stopped, ?status, ?regs, ?flags, ?mem⟩
  case stopped => rw [cycleState_stopped, hstop, Bool.true_or]
  case status => rw [cycleState_exitStatus, if_pos hstop]
  case regs => rw [cycleState_regs, if_pos hstop]
  case flags => rw [cycleState_flags, exeOut_flags_of_abnormal (.inr hstat)]
  case mem => rw [cycleState_mem, memOut_of_quietM hquiet]

end Sys2Proof.Machine
end

section
/-! PROOFS. The fetch stage's outputs (spec/41_fetch_stage.md): the fetch address, the status of what is fetched, the
fall-through address and the prediction. -/

namespace Sys2Proof.Machine

/-! ## The fetch address (R100) -/

section SelectPC

variable {F : FReg} {M : MReg} {W : WReg}

theorem selectPC_of_mispredicted (h : M.icode = .jxx ∧ M.cnd = false) : selectPC F M W = M.valA := if_pos h

theorem selectPC_of_return (hM : ¬(M.icode = .jxx ∧ M.cnd = false)) (hW : W.icode = .ret) :
    selectPC F M W = W.valM := by
  rw [selectPC, if_neg hM, if_pos hW]

theorem selectPC_of_predicted (hM : ¬(M.icode = .jxx ∧ M.cnd = false)) (hW : W.icode ≠ .ret) :
    selectPC F M W = F.predPC := by
  rw [selectPC, if_neg hM, if_neg hW]

end SelectPC

/-- Settles O13: one rule of `selectPC` for each source of the address. -/
theorem fetchAddressPriority : Obligations.FetchAddressPriority := by
  unfold Obligations.FetchAddressPriority
  intro s
  exact ⟨selectPC_of_mispredicted, selectPC_of_return, selectPC_of_predicted⟩

/-! ## The status (R101, R103) -/

theorem fetchStat_of_illegal {ic : Icode} (h : ic.legal = false) : fetchStat ic = .ins := if_pos h

theorem fetchStat_of_legal {ic : Icode} (hlegal : ic.legal = true) (hhalt : ic ≠ .halt) : fetchStat ic = .aok := by
  simp [fetchStat, hlegal, hhalt]

theorem fetchStage_outOfBounds {c : Config} {pc : Word} (h : c.memSize ≤ pc.toNat) (m : Memory) :
    fetchStage c m pc = fetchedOutOfBounds pc :=
  if_neg (inBounds_iff.not.2 (Nat.not_lt.2 h))

/-- In bounds, the class of the byte at the fetch address decides status and class. -/
theorem fetchStage_stat_icode {c : Config} {pc : Word} (h : pc.toNat < c.memSize) (m : Memory) :
    (fetchStage c m pc).stat = fetchStat (Icode.ofNibble c (hiNibble (m.get pc.toNat))) ∧
    (fetchStage c m pc).icode = Icode.ofNibble c (hiNibble (m.get pc.toNat)) := by
  have hpc : inBounds c pc = true := inBounds_iff.2 h
  have hbyte : memByte c m pc = m.get pc.toNat := if_pos hpc
  rw [fetchStage_inBounds hpc, hbyte]
  exact ⟨rfl, rfl⟩

/-- Settles O14: D takes the record fetched from the next state's memory (O16), whose status is `fetchStat` of the
class of its first byte, or an address error where there is none. -/
theorem fetchedStatusPriority : Obligations.FetchedStatusPriority := by
  unfold Obligations.FetchedStatusPriority
  intro s t hstep hD
  have hfetched : t.D = pendingD (fetchStage Config.machine t.mem (fetchPC s)) := fetchSeesThisCyclesStore s t hstep hD
  rw [hfetched]
  refine ⟨fun hpc => ?address, fun hpc hillegal => ?illegal, fun hpc hhalt => ?halt, fun hpc hlegal hhalt => ?ok⟩
  case address =>
    rw [fetchStage_outOfBounds hpc]
    exact ⟨rfl, rfl⟩
  all_goals obtain ⟨hstat, hicode⟩ := fetchStage_stat_icode hpc t.mem
  case illegal => exact ⟨hstat.trans (fetchStat_of_illegal hillegal), hicode⟩
  case halt => exact ⟨hstat.trans (congrArg fetchStat hhalt), hicode.trans hhalt⟩
  case ok => exact ⟨hstat.trans (fetchStat_of_legal hlegal hhalt), hicode⟩

/-! ## The fall-through address and the prediction (R105, R108) -/

/-- The fall-through address of every instruction is the one after its encoding, by the format's length. -/
theorem recordOf_valP (i : Instr) (pc : Word) :
    (recordOf i pc).valP = pc + BitVec.ofNat 64 (encode Config.machine i).length := by cases i <;> rfl

/-- Format J predicts its constant, every other format its fall-through address. -/
theorem recordOf_predPC (i : Instr) (pc : Word) :
    (recordOf i pc).predPC = (constantTarget i).getD (recordOf i pc).valP := by cases i <;> rfl

/-- Everything an instruction's meaning can answer with a next state: the clock cycle over its record. -/
theorem exec_next {i : Instr} {s t : State} (h : exec i s = .next t) :
    s.stopped = false ∧ t = cycleState Config.machine (fun _ pc => recordOf i pc) s := by
  rw [exec_eq_issue] at h
  exact clock_next_iff.1 h

/-- Settles O15: D and F latch `valP` and `predPC` of the instruction's record. -/
theorem fallThroughAndPrediction : Obligations.FallThroughAndPrediction := by
  unfold Obligations.FallThroughAndPrediction
  intro i s t hexec
  obtain ⟨-, rfl⟩ := exec_next hexec
  refine ⟨fun hD => ?valP, fun hF => ?predPC⟩
  case valP =>
    rw [cycleState_D, hD, latch_normal]
    exact recordOf_valP i (fetchPC s)
  case predPC => rw [cycleState_F, hF, latch_normal, recordOf_predPC, recordOf_valP]

end Sys2Proof.Machine
end

section
/-! PROOFS. Decode (spec/42_decode_stage_forwarding.md): the ids and operands that enter E, and that the forwarding
chain gives the newest value in flight. -/

namespace Sys2Proof.Machine

/-! ## What enters E (R121 to R124, R126, R129) -/

/-- A cycle in which E latches normally brings Decode's results into E (R83, R129). -/
theorem cycle_next_E {c : Config} {s t : State} (h : cycle c s = .next t) (hE : eCtlNow c s = .normal) :
    t.E = pendingE s.D (decOut c s) := by
  obtain ⟨-, rfl⟩ := clock_next_iff.1 h
  rw [cycleState_E, hE, latch_normal]

/-- Settles O17: E takes Decode's ids, which the class in D alone selects. -/
theorem decodedIdsOfEveryClass : Obligations.DecodedIdsOfEveryClass := by
  unfold Obligations.DecodedIdsOfEveryClass
  intro s t hstep hE
  rw [step_eq_cycle] at hstep
  rw [cycle_next_E hstep hE]
  simp only [pendingE, decOut, decodeStage]
  cases s.D.icode <;> rfl

theorem valA_of_fallThrough {D : DReg} (h : D.icode = .call ∨ D.icode = .jxx) (c : Config) (f : Forwards) (x : Regs) :
    valA c f x D = D.valP := by
  unfold valA
  obtain h | h := h <;> rw [h]

theorem valA_of_source {D : DReg} (hcall : D.icode ≠ .call) (hjump : D.icode ≠ .jxx) (c : Config) (f : Forwards)
    (x : Regs) : valA c f x D = fwd c f x (srcA c D.icode D.rA) := by
  unfold valA
  split
  · contradiction
  · contradiction
  all_goals rfl

/-! ## The forwarding chain (R125) -/

section Chain

variable {x : Regs} {r : RegId}

theorem firstMatch_cons_same {p : Source} (h : r = p.id) (ps : List Source) :
    firstMatch x r (p :: ps) = p.value := if_pos h

theorem firstMatch_cons_ne {p : Source} (h : r ≠ p.id) (ps : List Source) :
    firstMatch x r (p :: ps) = firstMatch x r ps := if_neg h

theorem firstMatch_cons_congr (p : Source) {ps qs : List Source} (h : firstMatch x r ps = firstMatch x r qs) :
    firstMatch x r (p :: ps) = firstMatch x r (p :: qs) := by
  simp only [firstMatch, h]

/-- Only where both sources are for the register does their order count. -/
theorem firstMatch_swap {p q : Source} (h : ¬(r = p.id ∧ r = q.id)) (ps : List Source) :
    firstMatch x r (p :: q :: ps) = firstMatch x r (q :: p :: ps) := by
  by_cases hp : r = p.id
  · have hq : r ≠ q.id := fun hq => h ⟨hp, hq⟩
    rw [firstMatch_cons_same hp, firstMatch_cons_ne hq, firstMatch_cons_same hp]
  · rw [firstMatch_cons_ne hp]
    exact firstMatch_cons_congr q (firstMatch_cons_ne hp ps).symm

variable {c : Config} {f : Forwards}

theorem fwd_rnone : fwd c f x rnone = 0 := if_pos rfl

/-- `FWD_M_ORDER` can be taken as `o` where M does not have the register as both its destinations (C4). -/
theorem fwd_eq_firstMatch_of_order (o : FwdMOrder) (hr : r ≠ rnone)
    (h : c.fwdMOrder = o ∨ ¬(r = f.mE.id ∧ r = f.mM.id)) :
    fwd c f x r = firstMatch x r (f.chain { c with fwdMOrder := o }) := by
  rw [fwd, if_neg hr]
  by_cases ho : c.fwdMOrder = o
  · rw [← ho]
  · have hM := firstMatch_swap (x := x) (h.resolve_left ho) [f.wM, f.wE]
    unfold Forwards.chain
    cases hc : c.fwdMOrder <;> cases o
    case dstEFirst.dstMFirst => exact firstMatch_cons_congr f.e hM
    case dstMFirst.dstEFirst => exact firstMatch_cons_congr f.e hM.symm
    all_goals contradiction

theorem fwd_of_execute (hr : r ≠ rnone) (he : r = f.e.id) : fwd c f x r = f.e.value := by
  rw [fwd, if_neg hr, Forwards.chain]
  cases c.fwdMOrder <;> exact firstMatch_cons_same he _

theorem fwd_of_dstE_of_M (hr : r ≠ rnone) (he : r ≠ f.e.id) (hmE : r = f.mE.id)
    (horder : c.fwdMOrder = .dstEFirst ∨ r ≠ f.mM.id) : fwd c f x r = f.mE.value := by
  rw [fwd_eq_firstMatch_of_order .dstEFirst hr (horder.imp_right fun hne h => hne h.2)]
  exact (firstMatch_cons_ne he _).trans (firstMatch_cons_same hmE _)

theorem fwd_of_dstM_of_M (hr : r ≠ rnone) (he : r ≠ f.e.id) (hmM : r = f.mM.id)
    (horder : c.fwdMOrder = .dstMFirst ∨ r ≠ f.mE.id) : fwd c f x r = f.mM.value := by
  rw [fwd_eq_firstMatch_of_order .dstMFirst hr (horder.imp_right fun hne h => hne h.1)]
  exact (firstMatch_cons_ne he _).trans (firstMatch_cons_same hmM _)

/-- A register that neither Execute nor M writes comes from W or the register file. -/
theorem fwd_of_ne_execute_M (hr : r ≠ rnone) (he : r ≠ f.e.id) (hmE : r ≠ f.mE.id) (hmM : r ≠ f.mM.id) :
    fwd c f x r = firstMatch x r [f.wM, f.wE] := by
  rw [fwd_eq_firstMatch_of_order .dstEFirst hr (.inr fun h => hmE h.1)]
  exact (firstMatch_cons_ne he _).trans ((firstMatch_cons_ne hmE _).trans (firstMatch_cons_ne hmM _))

end Chain

/-- What forwarding gives is the case list of R125, one rule of the chain for each source. -/
theorem resolvesTo_fwd (c : Config) (s : State) (r : RegId) :
    ResolvesTo c s r (fwd c (forwards (exeOut c s) (memOut c s) s.M s.W) s.regs r) := by
  let f := forwards (exeOut c s) (memOut c s) s.M s.W
  refine ⟨?sentinel, fwd_of_execute (f := f), fwd_of_dstE_of_M (f := f), fwd_of_dstM_of_M (f := f), ?wM, ?wE, ?file⟩
  case sentinel =>
    rintro rfl
    exact fwd_rnone
  case wM =>
    intro hr he hmE hmM hwM
    rw [fwd_of_ne_execute_M hr he hmE hmM]
    exact firstMatch_cons_same hwM _
  case wE =>
    intro hr he hmE hmM hwM hwE
    rw [fwd_of_ne_execute_M hr he hmE hmM]
    exact (firstMatch_cons_ne hwM _).trans (firstMatch_cons_same hwE _)
  case file =>
    intro hr he hmE hmM hwM hwE
    rw [fwd_of_ne_execute_M hr he hmE hmM]
    exact (firstMatch_cons_ne hwM _).trans (firstMatch_cons_ne hwE _)

/-- Settles O18: E takes Decode's operands, which are the fall-through address or what `fwd` gives. -/
theorem operandsComeFromTheFirstMatch : Obligations.OperandsComeFromTheFirstMatch := by
  unfold Obligations.OperandsComeFromTheFirstMatch
  intro c s t hcycle hE
  rw [cycle_next_E hcycle hE]
  refine ⟨fun hfall => valA_of_fallThrough hfall _ _ _, fun hcall hjump => ?valA, resolvesTo_fwd c s _⟩
  case valA =>
    simp only [pendingE, decOut, decodeStage, valA_of_source hcall hjump]
    exact resolvesTo_fwd c s _

/-! ## The newest value (R125, R132, R182) -/

/-- The registers after the writes of the sources, the last of the list first. -/
def writeSources (x : Regs) (ps : List Source) : Regs := ps.foldr (fun p y => regWrite y p.id p.value) x

theorem writeSources_cons (x : Regs) (p : Source) (ps : List Source) :
    writeSources x (p :: ps) = regWrite (writeSources x ps) p.id p.value := rfl

/-- The first match of a list of sources is what the register holds once they are written from the last to the first. -/
theorem firstMatch_eq_regRead_writeSources (x : Regs) {r : RegId} (hr : r ≠ rnone) (ps : List Source) :
    firstMatch x r ps = regRead (writeSources x ps) r := by
  induction ps with
  | nil => rfl
  | cons p ps ih =>
    rw [writeSources_cons]
    by_cases hp : r = p.id
    · subst hp
      rw [firstMatch_cons_same rfl, regRead_regWrite_same hr]
    · rw [firstMatch_cons_ne hp, regRead_regWrite_ne hp, ih]

/-- Settles O19: with `dstM_first`, or where that order gives the same, the chain is the reverse of the writes in
program order. -/
theorem forwardingGivesTheNewestValue : Obligations.ForwardingGivesTheNewestValue := by
  unfold Obligations.ForwardingGivesTheNewestValue
  intro c f x r hr horder
  have hM : c.fwdMOrder = .dstMFirst ∨ ¬(r = f.mE.id ∧ r = f.mM.id) := by
    refine horder.imp_right ?_
    rintro hids ⟨rfl, hmM⟩
    exact hids.elim (· hmM) hr
  rw [fwd_eq_firstMatch_of_order .dstMFirst hr hM]
  exact firstMatch_eq_regRead_writeSources x hr _

end Sys2Proof.Machine
end

section
/-! PROOFS. Execute (spec/43_execute_stage_alu_cc.md): the ALU result of every class, what the overflow functions and
the relations say of signed operands, when the flags are written, and the condition with the move it cancels. -/

namespace Sys2Proof.Machine

/-! ## What enters M (R83, R157) -/

/-- A cycle in which M latches normally brings Execute's results into M (R83, R157). -/
theorem cycle_next_M {c : Config} {s t : State} (h : cycle c s = .next t) (hM : mCtlNow c s = .normal) :
    t.M = pendingM s.E (exeOut c s) := by
  obtain ⟨-, rfl⟩ := clock_next_iff.1 h
  rw [cycleState_M, hM, latch_normal]

/-! ## The ALU result (R141 to R146) -/

/-- Addition stands first in the table and has a fixed number, so it is read back under every numbering, repeats or
not (R67). -/
theorem aluFn_ofIfun_add (c : Config) : AluFn.ofIfun c (AluFn.add.ifun c) = some .add :=
  List.find?_cons_of_pos (beq_self_eq_true _)

theorem exeValE_of_opq {c : Config} {E : EReg} (h : E.icode = .opq) : exeValE c E = alu c E.ifun E.valA E.valB := by
  simp only [exeValE, aluFun, aluA, aluB, h]

/-- Every class but OPQ adds its two ALU operands (R143, R144). -/
theorem exeValE_of_ne_opq {c : Config} {E : EReg} (h : E.icode ≠ .opq) : exeValE c E = aluB E + aluA E := by
  have hfun : aluFun c E = AluFn.add.ifun c := by
    unfold aluFun
    split
    case h_1 hopq => exact absurd hopq h
    all_goals rfl
  simp only [exeValE, hfun, alu, aluFn_ofIfun_add, applyAlu]

/-- Settles O23: M takes Execute's result, which is the function of OPQ's ifun, and for every other class the sum of
the two operands that the class selects. -/
theorem aluResultOfEveryClass : Obligations.AluResultOfEveryClass := by
  unfold Obligations.AluResultOfEveryClass
  intro s t hstep hM
  rw [step_eq_cycle] at hstep
  have hvalE : t.M.valE = exeValE Config.machine s.E := by rw [cycle_next_M hstep hM]; rfl
  rw [hvalE]
  by_cases hopq : s.E.icode = .opq
  · rw [exeValE_of_opq hopq, hopq, alu]
    cases AluFn.ofIfun Config.machine s.E.ifun with
    | none => rfl
    | some f => cases f <;> rfl
  · rw [exeValE_of_ne_opq hopq, aluA, aluB]
    cases hicode : s.E.icode
    case opq => exact absurd hicode hopq
    case call | pushq => exact (BitVec.sub_eq_add_neg ..).symm
    case rmmovq | mrmovq | ret | popq => rfl
    case rrmovq | irmovq => exact BitVec.zero_add _
    all_goals exact BitVec.zero_add 0

/-! ## Overflow (R155) -/

theorem addOverflow_eq_saddOverflow (a b : Word) : addOverflow a b (b + a) = b.saddOverflow a := by
  rw [addOverflow, BitVec.saddOverflow_eq]
  cases a.msb <;> cases b.msb <;> rfl

theorem subOverflow_eq_ssubOverflow (a b : Word) : subOverflow a b (b - a) = b.ssubOverflow a := by
  rw [subOverflow, BitVec.ssubOverflow_eq]
  cases a.msb <;> cases b.msb <;> simp

/-- Settles O24: the formulas over sign bits are the library's signed overflow predicates, which compare the exact sum
and difference with the bounds. -/
theorem overflowIsSignedRangeOverflow : Obligations.OverflowIsSignedRangeOverflow := by
  unfold Obligations.OverflowIsSignedRangeOverflow
  intro a b
  rw [addOverflow_eq_saddOverflow, subOverflow_eq_ssubOverflow]
  constructor
  · simp [BitVec.saddOverflow, or_comm]
  · simp [BitVec.ssubOverflow, or_comm]

/-! ## The relations after a subtraction (R150, R154, R223) -/

/-- The sign of a difference, corrected by its overflow, is the signed comparison: without overflow the difference is
exact, and with it the signs differ, so that `b` is the smaller exactly when it is negative. -/
theorem msb_sub_xor_ssubOverflow (a b : Word) :
    ((b - a).msb ^^ b.ssubOverflow a) = decide (b.toInt < a.toInt) := by
  cases hof : b.ssubOverflow a with
  | false =>
    have hexact : (b - a).toInt = b.toInt - a.toInt := BitVec.toInt_sub_of_not_ssubOverflow (by simp [hof])
    rw [Bool.xor_false, BitVec.msb_eq_toInt, hexact]
    exact decide_eq_decide.2 sub_neg
  | true =>
    obtain ⟨hsigns, hresult⟩ : a.msb ≠ b.msb ∧ (b - a).msb ≠ b.msb := by
      simpa [subOverflow, ← subOverflow_eq_ssubOverflow] using hof
    rw [Bool.xor_true, Bool.eq_not.2 hresult, Bool.not_not, BitVec.msb_eq_toInt]
    simp only [BitVec.msb_eq_toInt, ne_eq, decide_eq_decide] at hsigns
    exact decide_eq_decide.2 (by omega)

/-- The flags of `subq`: the result's zero test and sign, and the overflow of `b - a` (R154). -/
theorem aluFlags_sub {c : Config} (hc : c.numbersDistinct = true) (a b : Word) (old : Flags) :
    aluFlags c (AluFn.sub.ifun c) a b (b - a) old = ⟨decide (b = a), (b - a).msb, b.ssubOverflow a⟩ := by
  have hzero : (b - a == 0) = decide (b = a) := decide_eq_decide.2 sub_eq_zero
  simp only [aluFlags, aluFn_ofIfun_ifun hc, subOverflow_eq_ssubOverflow, hzero]

/-- Settles O25: ZF says equality and `SF xor OF` the signed "less", from which the seven formulas are built. -/
theorem relationsCompareSignedAfterSubtraction : Obligations.RelationsCompareSignedAfterSubtraction := by
  unfold Obligations.RelationsCompareSignedAfterSubtraction
  intro c a b old hc
  have heq : b = a ↔ b.toInt = a.toInt := BitVec.toInt_inj.symm
  simp only [aluFlags_sub hc, condHolds, msb_sub_xor_ssubOverflow, heq, ← decide_not, ← Bool.decide_or,
    ← Bool.decide_and, decide_eq_decide, ne_eq, true_and]
  refine ⟨?le, ?ge, ?g⟩
  case le => exact le_iff_lt_or_eq.symm
  case ge => exact not_lt
  case g => omega

/-! ## The flag store (R153, R154) -/

theorem setCc_iff {ic : Icode} {mStat wStat : Stat} :
    setCc ic mStat wStat = true ↔ ic = .opq ∧ mStat = .aok ∧ wStat = .aok := by
  cases mStat <;> cases wStat <;> simp [setCc, Stat.abnormal]

/-- Settles O26: the next flags are Execute's, written exactly under `setCc`. -/
theorem flagsAreWrittenOnlyByAnUnprotectedOpq : Obligations.FlagsAreWrittenOnlyByAnUnprotectedOpq := by
  unfold Obligations.FlagsAreWrittenOnlyByAnUnprotectedOpq
  intro c s t hcycle
  obtain ⟨-, rfl⟩ := clock_next_iff.1 hcycle
  rw [cycleState_flags, ← setCc_iff]
  refine ⟨fun hset => ?written, fun hset => if_neg hset⟩
  case written =>
    obtain ⟨hopq, -, -⟩ := setCc_iff.1 hset
    refine (if_pos hset).trans ?_
    rw [exeValE_of_opq hopq]
    simp only [aluFun, aluA, aluB, hopq]

/-! ## The condition and the cancelled move (R151, R152) -/

theorem exeCnd_of_conditional {E : EReg} (h : E.icode = .jxx ∨ E.icode = .rrmovq) (c : Config) (f : Flags) :
    exeCnd c E f = cond c E.ifun f := by
  rcases h with h | h <;> simp only [exeCnd, h]

theorem exeCnd_of_unconditional {E : EReg} (hjump : E.icode ≠ .jxx) (hmove : E.icode ≠ .rrmovq) (c : Config)
    (f : Flags) : exeCnd c E f = false :=
  Bool.eq_false_iff.2 fun hcnd => (icode_of_exeCnd hcnd).elim hjump hmove

/-- A move is cancelled exactly when the relation of its ifun is false. -/
theorem cancelled_iff {c : Config} {E : EReg} {f : Flags} :
    (E.icode = .rrmovq ∧ exeCnd c E f = false) ↔ (E.icode = .rrmovq ∧ cond c E.ifun f = false) :=
  and_congr_right fun hmove => by rw [exeCnd_of_conditional (.inr hmove)]

/-- Settles O27: M takes Execute's condition and the destination that `dstEAfterCond` leaves of E's. -/
theorem conditionCancelsTheMove : Obligations.ConditionCancelsTheMove := by
  unfold Obligations.ConditionCancelsTheMove
  intro s t hstep hM
  rw [step_eq_cycle] at hstep
  rw [cycle_next_M hstep hM]
  refine ⟨fun h => exeCnd_of_conditional h _ _, fun hjump hmove => exeCnd_of_unconditional hjump hmove _ _,
    fun hmove hcond => ?cancelled, fun hkept => ?kept⟩
  case cancelled => exact if_pos (cancelled_iff.2 ⟨hmove, hcond⟩)
  case kept => exact if_neg (cancelled_iff.not.2 hkept)

end Sys2Proof.Machine
end

section
/-! PROOFS. The Memory stage (spec/44_memory_stage.md): the store of a cycle and its frame, the bytes that a load brings
to W, and an access that is not admitted. -/

namespace Sys2Proof.Machine

/-! ## An access by whether it is admitted (R41, R43, R44, R45) -/

/-- Byte `i` of an admitted load is the byte of memory at offset `i` (R41, R43). -/
theorem byteAt_memRead8 {c : Config} {a : Word} (ha : admitted c a = true) (m : Memory) {i : Nat} (hi : i < 8) :
    byteAt (memRead8 c m a) i = m.get (a.toNat + i) := by
  rw [memRead8, if_pos ha, byteAt_longOf _ i hi]

theorem memRead8_refused {c : Config} {a : Word} (ha : admitted c a = false) (m : Memory) : memRead8 c m a = 0 :=
  if_neg (Bool.eq_false_iff.1 ha)

theorem memWrite8_refused {c : Config} {a : Word} (ha : admitted c a = false) (m : Memory) (v : Word) :
    memWrite8 c m a v = m := if_neg (Bool.eq_false_iff.1 ha)

/-! ## What the stage computes (R171 to R175) -/

section Stage

variable (c : Config) (m : Memory) {M : MReg}

/-- A storing class writes through the memory's own store, which already leaves out a refused one (R171, R174). -/
theorem memoryStage_mem_of_store (h : writesMem M.icode = true) :
    (memoryStage c m M).mem = memWrite8 c m (memAddr M) M.valA := by
  cases ha : admitted c (memAddr M) with
  | true => simp [memoryStage, memError, h, ha]
  | false => simp [memoryStage, memError, h, ha, memWrite8_refused ha]

theorem memoryStage_mem_of_no_store (h : writesMem M.icode = false) : (memoryStage c m M).mem = m :=
  if_neg fun hstore => Bool.eq_false_iff.1 h hstore.1

/-- A loading class reads through the memory's own load, which already gives 0 for a refused one (R171, R173). -/
theorem memoryStage_valM_of_load (h : readsMem M.icode = true) :
    (memoryStage c m M).valM = memRead8 c m (memAddr M) := by
  cases ha : admitted c (memAddr M) with
  | true => simp [memoryStage, memError, h, ha]
  | false => simp [memoryStage, memError, h, ha, memRead8_refused ha]

theorem memoryStage_valM_of_no_load (h : readsMem M.icode = false) : (memoryStage c m M).valM = 0 :=
  if_neg fun hload => Bool.eq_false_iff.1 h hload.1

/-- Memory stays as it is without an admitted store (R171, R174). -/
theorem memoryStage_mem_unchanged (h : ¬(writesMem M.icode = true ∧ admitted c (memAddr M) = true)) :
    (memoryStage c m M).mem = m := by
  cases hstore : writesMem M.icode with
  | true =>
    have ha : admitted c (memAddr M) = false := Bool.eq_false_iff.2 fun ha => h ⟨hstore, ha⟩
    rw [memoryStage_mem_of_store c m hstore, memWrite8_refused ha]
  | false => exact memoryStage_mem_of_no_store c m hstore

/-- A refused access is an address error, whatever status the instruction came with (R172, R175). -/
theorem memoryStage_stat_of_refused (h : readsMem M.icode = true ∨ writesMem M.icode = true)
    (ha : admitted c (memAddr M) = false) : (memoryStage c m M).stat = .adr := by
  have herror : memError c M = true := by simp [memError, h, ha]
  exact if_pos herror

end Stage

/-- Settles O28: the next memory is the Memory stage's, which is this one unless a store is admitted, and then
`memWrite8` of it. -/
theorem memoryChangesOnlyByTheStoreInM : Obligations.MemoryChangesOnlyByTheStoreInM := by
  unfold Obligations.MemoryChangesOnlyByTheStoreInM
  intro s t hwf hstep
  obtain ⟨-, record, rfl⟩ := step_next hstep
  rw [cycleState_mem, memOut]
  refine ⟨memoryStage_mem_unchanged _ _, ?store⟩
  case store =>
    rintro ⟨hstore, ha⟩
    rw [memoryStage_mem_of_store _ _ hstore]
    exact ⟨fun k hk => get_memWrite8_outside hk, fun i hi => get_memWrite8_inside hwf ha hi⟩

/-! ## The load (R170, R171, R173) -/

theorem readsMem_eq_true_iff {ic : Icode} : readsMem ic = true ↔ ic = .mrmovq ∨ ic = .popq ∨ ic = .ret := by
  cases ic <;> simp [readsMem]

theorem memAddr_of_mrmovq {M : MReg} (h : M.icode = .mrmovq) : memAddr M = M.valE := by
  rw [memAddr, h]

theorem memAddr_of_pop {M : MReg} (h : M.icode = .popq ∨ M.icode = .ret) : memAddr M = M.valA := by
  obtain h | h := h <;> rw [memAddr, h]

/-- Settles O29: `valM` of W is the Memory stage's, which is `memRead8` at the address of a loading class and 0 for any
other class. -/
theorem loadBringsItsBytesToW : Obligations.LoadBringsItsBytesToW := by
  unfold Obligations.LoadBringsItsBytesToW
  intro s t hstep
  obtain ⟨-, record, rfl⟩ := step_next hstep
  rw [cycleState_W, pendingW, memOut]
  refine ⟨fun hicode ha i hi => ?mrmovq, fun hicode ha i hi => ?pop, fun hload ha => ?refused,
    fun hmrmovq hpopq hret => ?noLoad⟩
  case mrmovq =>
    rw [memoryStage_valM_of_load _ _ (readsMem_eq_true_iff.2 (.inl hicode)), memAddr_of_mrmovq hicode]
    exact byteAt_memRead8 ha s.mem hi
  case pop =>
    rw [memoryStage_valM_of_load _ _ (readsMem_eq_true_iff.2 (.inr hicode)), memAddr_of_pop hicode]
    exact byteAt_memRead8 ha s.mem hi
  case refused =>
    rw [memoryStage_valM_of_load _ _ hload]
    exact memRead8_refused ha s.mem
  case noLoad =>
    refine memoryStage_valM_of_no_load _ _ (Bool.eq_false_iff.2 fun hload => ?_)
    obtain h | h | h := readsMem_eq_true_iff.1 hload
    exacts [hmrmovq h, hpopq h, hret h]

/-! ## The access that is not admitted (R172, R174, R175, R196) -/

/-- Settles O31: the refused access is an address error on its way to W, and behind an abnormal status no flag is
written and M becomes a bubble. -/
theorem unadmittedAccessIsAnAddressError : Obligations.UnadmittedAccessIsAnAddressError := by
  unfold Obligations.UnadmittedAccessIsAnAddressError
  intro s t hstep haccess ha
  obtain ⟨-, record, rfl⟩ := step_next hstep
  have hadr : (memOut Config.machine s).stat = .adr := memoryStage_stat_of_refused _ _ haccess ha
  have habnormal : (memOut Config.machine s).stat ≠ .aok := by rw [hadr]; decide
  refine ⟨hadr, rfl, ?mem, ?flags, cycleState_M_of_abnormal habnormal⟩
  case mem => exact memoryStage_mem_unchanged _ _ fun hstore => Bool.eq_false_iff.1 ha hstore.2
  case flags => exact exeOut_flags_of_abnormal (.inl habnormal)

end Sys2Proof.Machine
end

section
/-! PROOFS. The Writeback stage (spec/45_writeback_stage.md): the stop, the commit and its frame. -/

namespace Sys2Proof.Machine

/-- W stops the machine exactly on an abnormal status or a HALT (R180). -/
theorem wStop_iff {W : WReg} : wStop W = true ↔ W.stat ≠ .aok ∨ W.icode = .halt := by
  simp [wStop]

/-- Settles O32: the stop condition is `wStop`, and the two arms of Writeback leave the registers or the commit, whose
frame is `regRead_commit_ne`. -/
theorem writebackCommitsOrStops : Obligations.WritebackCommitsOrStops := by
  unfold Obligations.WritebackCommitsOrStops
  intro s t hstep
  obtain ⟨hrun, record, rfl⟩ := step_next hstep
  rw [cycleState_regs, cycleState_stopped, cycleState_exitStatus, hrun, Bool.or_false]
  constructor
  · intro hcause
    have hstop : wStop s.W = true := wStop_iff.2 hcause
    exact ⟨if_pos hstop, hstop, if_pos hstop⟩
  · intro hstat hhalt
    have hgo : ¬wStop s.W = true := fun hstop => (wStop_iff.1 hstop).elim (· hstat) hhalt
    rw [if_neg hgo, if_neg hgo]
    exact ⟨rfl, fun r hE hM => regRead_commit_ne hE hM, Bool.eq_false_iff.2 hgo, rfl⟩

end Sys2Proof.Machine
end

section
/-! PROOFS. Hazard control (spec/46_hazard_control.md): what each pipeline register latches under the three hazard
conditions and the two statuses, the load-use cycle, the squash behind a mispredicted jump, and the return drain. -/

namespace Sys2Proof.Machine

/-! ## The three hazard conditions (R190 to R192) -/

section Hazards

variable {c : Config} {s : State}

/-- The hazard is an equality of ids, the sentinel included (D20). -/
theorem loadUseNow_iff : loadUseNow c s = true ↔
    (s.E.icode = .mrmovq ∨ s.E.icode = .popq) ∧
      (s.E.dstM = srcA c s.D.icode s.D.rA ∨ s.E.dstM = srcB c s.D.icode s.D.rB) := by
  simp [loadUseNow, loadUse, decOut, decodeStage]

theorem retDrainNow_iff :
    retDrainNow s = true ↔ s.D.icode = .ret ∨ s.E.icode = .ret ∨ s.M.icode = .ret := by
  simp [retDrainNow, retDrain, or_assoc]

theorem mispredictNow_iff :
    mispredictNow c s = true ↔ s.E.icode = .jxx ∧ cond c s.E.ifun s.flags = false := by
  simp only [mispredictNow, mispredict, Bool.and_eq_true, beq_iff_eq, Bool.not_eq_true']
  exact and_congr_right fun hjump => by rw [← exeCnd_of_conditional (.inl hjump)]; rfl

theorem loadUseNow_of_no_load (hmrmovq : s.E.icode ≠ .mrmovq) (hpopq : s.E.icode ≠ .popq) :
    loadUseNow c s = false :=
  Bool.eq_false_iff.2 fun h => (loadUseNow_iff.1 h).1.elim hmrmovq hpopq

end Hazards

/-! ## What each register latches (R193 to R197) -/

section Registers

variable {c : Config} {fetch : Memory → Word → FetchOut} {s : State}

theorem cycleState_F_of_hazard (h : loadUseNow c s = true ∨ retDrainNow s = true) :
    (cycleState c fetch s).F = s.F := by
  have hctl : fCtlNow c s = .stall := if_pos (by simpa using h)
  rw [cycleState_F, hctl, latch_stall]

theorem cycleState_F_of_no_hazard (hload : loadUseNow c s = false) (hret : retDrainNow s = false) :
    (cycleState c fetch s).F = ⟨(fetch (memOut c s).mem (fetchPC s)).predPC⟩ := by
  have hctl : fCtlNow c s = .normal := by simp [fCtlNow, fCtl, hload, hret]
  rw [cycleState_F, hctl, latch_normal]

theorem cycleState_D_of_loadUse (hload : loadUseNow c s = true) : (cycleState c fetch s).D = s.D := by
  have hctl : dCtlNow c s = .stall := if_pos hload
  rw [cycleState_D, hctl, latch_stall]

/-- Under `RET_DRAIN_D = normal` a drain puts what is fetched into D, a mispredicted jump or not (R194, R198, C3). -/
theorem cycleState_D_of_normal_drain (hcfg : c.retDrainD = .normal) (hload : loadUseNow c s = false)
    (hret : retDrainNow s = true) :
    (cycleState c fetch s).D = pendingD (fetch (memOut c s).mem (fetchPC s)) := by
  have hctl : dCtlNow c s = .normal := by simp [dCtlNow, dCtl, hcfg, hload, hret]
  rw [cycleState_D, hctl, latch_normal]

theorem cycleState_D_of_bubble_drain (hcfg : c.retDrainD = .bubble) (hload : loadUseNow c s = false)
    (hret : retDrainNow s = true) : (cycleState c fetch s).D = .bubble := by
  have hctl : dCtlNow c s = .bubble := by simp [dCtlNow, dCtl, hcfg, hload, hret]
  rw [cycleState_D, hctl, latch_bubble]

theorem cycleState_D_of_mispredict (hload : loadUseNow c s = false) (hret : retDrainNow s = false)
    (hmis : mispredictNow c s = true) : (cycleState c fetch s).D = .bubble := by
  have hctl : dCtlNow c s = .bubble := by cases hcfg : c.retDrainD <;> simp [dCtlNow, dCtl, hcfg, hload, hret, hmis]
  rw [cycleState_D, hctl, latch_bubble]

theorem cycleState_D_of_no_hazard (hload : loadUseNow c s = false) (hret : retDrainNow s = false)
    (hmis : mispredictNow c s = false) :
    (cycleState c fetch s).D = pendingD (fetch (memOut c s).mem (fetchPC s)) := by
  have hctl : dCtlNow c s = .normal := by cases hcfg : c.retDrainD <;> simp [dCtlNow, dCtl, hcfg, hload, hret, hmis]
  rw [cycleState_D, hctl, latch_normal]

theorem cycleState_E_of_hazard (h : loadUseNow c s = true ∨ mispredictNow c s = true) :
    (cycleState c fetch s).E = .bubble := by
  have hctl : eCtlNow c s = .bubble := if_pos (by simpa using h)
  rw [cycleState_E, hctl, latch_bubble]

theorem cycleState_E_of_no_hazard (hload : loadUseNow c s = false) (hmis : mispredictNow c s = false) :
    (cycleState c fetch s).E = pendingE s.D (decOut c s) := by
  have hctl : eCtlNow c s = .normal := by simp [eCtlNow, eCtl, hload, hmis]
  rw [cycleState_E, hctl, latch_normal]

theorem mCtlNow_of_abnormal (h : (memOut c s).stat ≠ .aok ∨ s.W.stat ≠ .aok) : mCtlNow c s = .bubble := by
  rcases h with h | h <;> simp [mCtlNow, mCtl, h]

theorem mCtlNow_of_aok (hmem : (memOut c s).stat = .aok) (hW : s.W.stat = .aok) : mCtlNow c s = .normal := by
  simp [mCtlNow, mCtl, hmem, hW]

end Registers

/-- Settles O35: one rule for each register and each case of its control; W has none. -/
theorem registersObeyTheHazardUnit : Obligations.RegistersObeyTheHazardUnit := by
  unfold Obligations.RegistersObeyTheHazardUnit
  intro c s t hcycle
  obtain ⟨-, rfl⟩ := clock_next_iff.1 hcycle
  simp only [← loadUseNow_iff, ← retDrainNow_iff, ← mispredictNow_iff, Bool.not_eq_true]
  refine ⟨cycleState_F_of_hazard, fun hload hret => ?predPC, cycleState_D_of_loadUse, fun hload hret => ?drain,
    cycleState_D_of_mispredict, cycleState_D_of_no_hazard, cycleState_E_of_hazard, cycleState_E_of_no_hazard,
    fun h => ?bubbleM, fun hmem hW => ?normalM, rfl⟩
  case predPC => rw [cycleState_F_of_no_hazard hload hret]
  case drain =>
    cases hcfg : c.retDrainD with
    | normal => exact cycleState_D_of_normal_drain hcfg hload hret
    | bubble => exact cycleState_D_of_bubble_drain hcfg hload hret
  case bubbleM => rw [cycleState_M, mCtlNow_of_abnormal h, latch_bubble]
  case normalM => rw [cycleState_M, mCtlNow_of_aok hmem hW, latch_normal]

/-- Everything a step can answer with a next state: the clock cycle of the stage rules. -/
theorem step_next_iff {s t : State} :
    step s = .next t ↔ s.stopped = false ∧ t = cycleState Config.machine (fetchStage Config.machine) s := by
  rw [step_eq_cycle]
  exact clock_next_iff

/-! ## The load-use cycle (R199) -/

section LoadUse

variable {c : Config} {t : State}

/-- An operand with a source id is what forwarding gives for it: a CALL and a JUMP, which bypass the table, have none
(R121, R126). -/
theorem decOut_valA_of_srcA (h : (decOut c t).srcA ≠ rnone) :
    (decOut c t).valA = fwd c (forwards (exeOut c t) (memOut c t) t.M t.W) t.regs (decOut c t).srcA := by
  refine valA_of_source (fun hcall => h ?_) (fun hjump => h ?_) c _ _
  · simp only [decOut, decodeStage, hcall, srcA]
  · simp only [decOut, decodeStage, hjump, srcA]

/-- Behind a load in M stands a bubble in E, so that its loaded value is the first match for its register, unless the
load's other destination is that register too (R125, C4). -/
theorem fwd_of_load_in_M (hE : t.E = .bubble) (hM : t.M.dstM ≠ rnone) (hne : t.M.dstM ≠ t.M.dstE) :
    fwd c (forwards (exeOut c t) (memOut c t) t.M t.W) t.regs t.M.dstM = (memOut c t).valM := by
  have hquiet : QuietE t.E := hE ▸ ⟨rfl, rfl, rfl, rfl⟩
  have he : (exeOut c t).dstE = rnone := (quietM_pendingM hquiet).2.2.1
  exact fwd_of_dstM_of_M (f := forwards ..) hM (fun h => hM (h.trans he)) rfl (.inr hne)

/-- A load's E-destination is M's: only a move is cancelled (R152). -/
theorem dstE_pendingM_of_load {E : EReg} (h : E.icode = .mrmovq ∨ E.icode = .popq) (f : Flags) (mStat wStat : Stat) :
    (pendingM E (executeStage c f E mStat wStat)).dstE = E.dstE := by
  refine if_neg fun hmove => ?_
  rcases h with h | h <;> rw [hmove.1] at h <;> cases h

end LoadUse

/-- Settles O36: D holds the reader, E holds a bubble, and M the load with both its destinations, which is the first
match of the forwarding chain for the loaded register. -/
theorem loadUseCostsOneCycle : Obligations.LoadUseCostsOneCycle := by
  unfold Obligations.LoadUseCostsOneCycle
  intro s t hstep hload hctl
  obtain ⟨-, ht⟩ := step_next_iff.1 hstep
  have hE : t.E = .bubble := ht ▸ cycleState_E_of_hazard (.inl hload)
  have hM : t.M = pendingM s.E (exeOut Config.machine s) := by rw [ht, cycleState_M, hctl, latch_normal]
  have hdstM : t.M.dstM = s.E.dstM := by rw [hM]; rfl
  have hdstE : t.M.dstE = s.E.dstE := by rw [hM]; exact dstE_pendingM_of_load (loadUseNow_iff.1 hload).1 _ _ _
  rw [← hdstM, ← hdstE]
  refine ⟨ht ▸ cycleState_F_of_hazard (.inl hload), ht ▸ cycleState_D_of_loadUse hload, hE,
    loadUseNow_of_no_load (by simp [hE, EReg.bubble]) (by simp [hE, EReg.bubble]),
    fun hr hne hsrc => ?valA, fun hr hne hsrc => ?valB⟩
  case valA => rw [decOut_valA_of_srcA (hsrc ▸ hr), hsrc, fwd_of_load_in_M hE hr hne]
  case valB => exact (congrArg (fwd _ _ _) hsrc).trans (fwd_of_load_in_M hE hr hne)

/-! ## The mispredicted jump (R195, R201) -/

/-- Settles O38: the hazard unit squashes E and, without a drain, D, and the jump enters M with a false condition, from
where R100 takes its fall-through address. -/
theorem mispredictedJumpIsSquashed : Obligations.MispredictedJumpIsSquashed := by
  unfold Obligations.MispredictedJumpIsSquashed
  intro s t hstep hjump hcond hmem hW
  obtain ⟨-, rfl⟩ := step_next_iff.1 hstep
  have hmis : mispredictNow Config.machine s = true := mispredictNow_iff.2 ⟨hjump, hcond⟩
  have hM : (cycleState Config.machine (fetchStage Config.machine) s).M =
      pendingM s.E (exeOut Config.machine s) := by rw [cycleState_M, mCtlNow_of_aok hmem hW, latch_normal]
  have hcnd : (pendingM s.E (exeOut Config.machine s)).cnd = false :=
    (exeCnd_of_conditional (.inl hjump) _ _).trans hcond
  refine ⟨cycleState_E_of_hazard (.inr hmis), ?redirect, hM ▸ hjump, hM ▸ hcnd, fun hD hMret => ?squashD⟩
  case redirect => rw [fetchPC, hM, selectPC_of_mispredicted ⟨hjump, hcnd⟩]; rfl
  case squashD =>
    have hload : loadUseNow Config.machine s = false := loadUseNow_of_no_load (by simp [hjump]) (by simp [hjump])
    have hret : retDrainNow s = false := by simp [retDrainNow, retDrain, hD, hMret, hjump]
    exact cycleState_D_of_mispredict hload hret hmis

/-! ## The return drain (R191, R193, R200) -/

/-- Settles O37: the drain stalls F, and R100 gives the address of a RETURN in W. -/
theorem returnDrainStallsFetch : Obligations.ReturnDrainStallsFetch := by
  unfold Obligations.ReturnDrainStallsFetch
  refine ⟨fun s t hstep hret => ?stall, fun s hW hM => selectPC_of_return hM hW⟩
  obtain ⟨-, rfl⟩ := step_next_iff.1 hstep
  exact cycleState_F_of_hazard (.inr (retDrainNow_iff.2 hret))

section Drain

variable {s t u : State} {r : FetchOut} {pc : Word} {m : Memory}

/-- With neither a mispredicted jump in M nor a RETURN in W, a cycle of the drain keeps the prediction and puts the
record fetched there into D, unless a load-use hazard keeps D as it is. -/
theorem step_of_drain (hstep : step t = .next u) (hret : retDrainNow t = true) (hM : t.M.icode ≠ .jxx)
    (hW : t.W.icode ≠ .ret) (hmem : (memOut Config.machine t).mem = m) (hpc : t.F.predPC = pc) :
    u.F.predPC = pc ∧
      (u.D = pendingD (fetchStage Config.machine m pc) ∨ loadUseNow Config.machine t = true ∧ u.D = t.D) := by
  obtain ⟨-, rfl⟩ := step_next_iff.1 hstep
  have hfetch : fetchPC t = pc := (selectPC_of_predicted (fun h => hM h.1) hW).trans hpc
  refine ⟨by rw [cycleState_F_of_hazard (.inr hret), hpc], ?_⟩
  cases hload : loadUseNow Config.machine t with
  | true => exact .inr ⟨rfl, cycleState_D_of_loadUse hload⟩
  | false => exact .inl (by rw [cycleState_D_of_normal_drain rfl hload hret, hmem, hfetch])

/-- Without a load in E nothing keeps D as it is. -/
theorem step_of_drain_no_load (hstep : step t = .next u) (hret : retDrainNow t = true) (hM : QuietM t.M)
    (hW : QuietW t.W) (hmem : t.mem = m) (hpc : t.F.predPC = pc) (hmrmovq : t.E.icode ≠ .mrmovq)
    (hpopq : t.E.icode ≠ .popq) :
    u.F.predPC = pc ∧ u.D = pendingD (fetchStage Config.machine m pc) := by
  have hload : loadUseNow Config.machine t = false := loadUseNow_of_no_load hmrmovq hpopq
  refine (step_of_drain hstep hret (by simp [hM.2.1]) (by simp [hW.2.1]) ?_ hpc).imp_right
    fun hD => hD.resolve_right fun h => Bool.eq_false_iff.1 hload h.1
  rw [memOut_of_quietM hM, hmem]

/-- The cycle with a RETURN, alone in the pipeline, in D. -/
theorem SoloInD.drains (h : SoloInD s r t) (hr : r.icode = .ret) (hstep : step t = .next u) :
    u.F.predPC = r.predPC ∧ u.D = pendingD (fetchStage Config.machine s.mem r.predPC) := by
  have hret : t.D.icode = .ret := (congrArg DReg.icode h.D).trans hr
  have hpc : t.F.predPC = r.predPC := (fetchPC_of_quiet h.quietM h.quietW).symm.trans h.fetch
  exact step_of_drain_no_load hstep (retDrainNow_iff.2 (.inl hret)) h.quietM h.quietW h.mem hpc
    (by simp [h.quietE.2.1]) (by simp [h.quietE.2.1])

/-- The cycle with the RETURN in E. -/
theorem SoloInE.drains (h : SoloInE s r t) (hr : r.icode = .ret) (hstep : step t = .next u) (hpc : t.F.predPC = pc) :
    u.F.predPC = pc ∧ u.D = pendingD (fetchStage Config.machine s.mem pc) := by
  have hret : t.E.icode = .ret := (congrArg EReg.icode h.E).trans hr
  exact step_of_drain_no_load hstep (retDrainNow_iff.2 (.inr (.inl hret))) h.quietM h.quietW h.mem hpc
    (by simp [hret]) (by simp [hret])

/-- The cycle with the RETURN in M: what E holds by now is left open, and may be a load that stalls D (R198). -/
theorem SoloInM.drains (h : SoloInM s r t) (hr : r.icode = .ret) (hstep : step t = .next u) (hpc : t.F.predPC = pc) :
    u.D = pendingD (fetchStage Config.machine s.mem pc) ∨ u.D = t.D := by
  have hret : t.M.icode = .ret := (congrArg MReg.icode h.M).trans hr
  have hmem : (memOut Config.machine t).mem = s.mem :=
    (memoryStage_mem_of_no_store _ _ (by rw [hret]; rfl)).trans h.mem
  obtain ⟨-, hD⟩ := step_of_drain hstep (retDrainNow_iff.2 (.inr (.inr hret))) (by simp [hret])
    (by simp [h.quietW.2.1]) hmem hpc
  exact hD.imp_right And.right

end Drain

/-- Settles O39: the drain lasts while the RETURN, alone ahead, goes through D, E and M. Its first two cycles fetch the
instruction after it into D; in the third a load-use hazard may instead keep it there. -/
theorem instructionAfterRetIsInDForThreeCycles : Obligations.InstructionAfterRetIsInDForThreeCycles := by
  unfold Obligations.InstructionAfterRetIsInDForThreeCycles
  intro s fn hs
  obtain ⟨t1, t2, t3, t4, ⟨h1, h2, h3, h4⟩, hinD, hinE, hinM, hinW⟩ :=
    soloPassage_of_ready (record := fetchedO .aok .ret fn) hs rfl
  obtain ⟨hpc2, hD2⟩ := hinD.drains rfl h2
  obtain ⟨hpc3, hD3⟩ := hinE.drains rfl h3 hpc2
  have hD4 := (hinM.drains rfl h4 hpc3).elim id fun hheld => hheld.trans hD3
  exact ⟨t1, t2, t3, t4, _, ⟨h1, h2, h3, h4, step_running hinW.stopped⟩, hD2, hD3, hD4⟩

end Sys2Proof.Machine
end

section
/-! PROOFS. What the five stages make of one instruction with nothing ahead of it, at every value of the parameters, and
that it is the net effect of the sequential view (spec/47_instructions_move_alu.md R230). -/

namespace Sys2Proof.Machine

/-! ## The stages, one after another, over a state of the sequential view -/

section Staged

variable (c : Config) (a : SeqState) (r : FetchOut)

/-- E, when the record `r` is decoded with the registers of `a` (R129). -/
def stagedE : EReg := pendingE (pendingD r) (decodeStage c a.regs noForwards (pendingD r))

/-- What Execute then computes (R140 to R158). -/
def stagedExe : ExeOut := executeStage c a.flags (stagedE c a r) .aok .aok

/-- M after that (R157). -/
def stagedM : MReg := pendingM (stagedE c a r) (stagedExe c a r)

/-- What the Memory stage then computes (R170 to R175). -/
def stagedMem : MemOut := memoryStage c a.mem (stagedM c a r)

/-- W after that (R176). -/
def stagedW : WReg := pendingW (stagedM c a r) (stagedMem c a r)

/-- The state after an instruction that commits: its next address is the one that R100 selects with the instruction in M
or in W. -/
def stagedNext : SeqState where
  regs  := commit (stagedW c a r) a.regs
  flags := (stagedExe c a r).flags
  mem   := (stagedMem c a r).mem
  pc    := selectPC ⟨r.predPC⟩ (stagedM c a r) (stagedW c a r)

/-- The instruction commits with status OK, and else stops the machine (R180, R181). -/
def stagedOutcome : SeqOutcome :=
  if (stagedW c a r).stat = .aok then .next (stagedNext c a r) else .raise (stagedW c a r).stat

end Staged

section StagedFields

variable (c : Config) (a : SeqState) (r : FetchOut)

theorem stagedM_valA_of_source (hcall : r.icode ≠ .call) (hjump : r.icode ≠ .jxx) :
    (stagedM c a r).valA = operand a.regs (srcA c r.icode r.rA) :=
  (valA_of_source (D := pendingD r) hcall hjump c noForwards a.regs).trans (fwd_noForwards ..)

theorem stagedE_valB : (stagedE c a r).valB = operand a.regs (srcB c r.icode r.rB) := fwd_noForwards ..

theorem stagedM_valE_of_opq (h : r.icode = .opq) :
    (stagedM c a r).valE = alu c r.ifun (stagedM c a r).valA (stagedE c a r).valB :=
  exeValE_of_opq (E := stagedE c a r) h

theorem stagedM_valE_of_ne_opq (h : r.icode ≠ .opq) :
    (stagedM c a r).valE = aluB (stagedE c a r) + aluA (stagedE c a r) :=
  exeValE_of_ne_opq (E := stagedE c a r) h

/-- The classes that add to operand B (R142). -/
theorem stagedM_valE_of_base (h : r.icode ≠ .opq) (hB : aluB (stagedE c a r) = (stagedE c a r).valB) :
    (stagedM c a r).valE = operand a.regs (srcB c r.icode r.rB) + aluA (stagedE c a r) := by
  rw [stagedM_valE_of_ne_opq c a r h, hB, stagedE_valB]

/-- A store puts operand A at the address of its class (R170, R174). -/
theorem stagedNext_mem_of_store (h : writesMem r.icode = true) :
    (stagedNext c a r).mem = memWrite8 c a.mem (memAddr (stagedM c a r)) (stagedM c a r).valA :=
  memoryStage_mem_of_store _ _ h

theorem stagedMem_valM_of_load (h : readsMem r.icode = true) :
    (stagedMem c a r).valM = memRead8 c a.mem (memAddr (stagedM c a r)) :=
  memoryStage_valM_of_load _ _ h

theorem stagedNext_regs :
    (stagedNext c a r).regs =
      regWrite (regWrite a.regs (stagedM c a r).dstE (stagedM c a r).valE) (stagedM c a r).dstM
        (stagedMem c a r).valM := rfl

end StagedFields

/-! ## The outcome, by whether the class accesses memory -/

section StagedOutcome

variable {c : Config} {a b : SeqState} {r : FetchOut}

/-- `b` is the state after the instruction. -/
structure StagedAs (c : Config) (a : SeqState) (r : FetchOut) (b : SeqState) : Prop where
  regs  : (stagedNext c a r).regs = b.regs
  flags : (stagedNext c a r).flags = b.flags
  mem   : (stagedNext c a r).mem = b.mem
  pc    : (stagedNext c a r).pc = b.pc

theorem StagedAs.eq (h : StagedAs c a r b) : stagedNext c a r = b := by
  obtain ⟨hregs, hflags, hmem, hpc⟩ := h
  cases b
  cases hregs
  cases hflags
  cases hmem
  cases hpc
  rfl

/-- A class that accesses no memory keeps the status of its fetch. -/
theorem stagedOutcome_of_no_access (hload : readsMem r.icode = false) (hstore : writesMem r.icode = false)
    (hstat : r.stat = .aok) (h : StagedAs c a r b) : stagedOutcome c a r = .next b := by
  have herror : memError c (stagedM c a r) = false := by
    have haccess : (readsMem (stagedM c a r).icode || writesMem (stagedM c a r).icode) = false :=
      Bool.or_eq_false_iff.2 ⟨hload, hstore⟩
    rw [memError, haccess, Bool.false_and]
  have hW : (stagedW c a r).stat = .aok := (if_neg (Bool.eq_false_iff.1 herror)).trans hstat
  rw [stagedOutcome, if_pos hW, h.eq]

/-- A class that accesses memory completes exactly when its address is admitted (R172, R175). -/
theorem stagedOutcome_of_access {addr : Word} (haccess : (readsMem r.icode || writesMem r.icode) = true)
    (hstat : r.stat = .aok) (haddr : memAddr (stagedM c a r) = addr) (h : StagedAs c a r b) :
    stagedOutcome c a r = if admitted c addr then .next b else .raise .adr := by
  have herror : memError c (stagedM c a r) = !admitted c addr := by
    have haccess' : (readsMem (stagedM c a r).icode || writesMem (stagedM c a r).icode) = true := haccess
    rw [memError, haccess', haddr, Bool.true_and]
  have hW : (stagedW c a r).stat = if memError c (stagedM c a r) then .adr else r.stat := rfl
  rw [stagedOutcome, hW, herror, hstat, h.eq]
  cases admitted c addr <;> rfl

end StagedOutcome

/-! ## The net effect of each class (R210 to R225, R240 to R250) -/

/-- The sequential view of what the decoder reads. -/
def seqDecoded (c : Config) : Except Reject Instr → SeqState → SeqOutcome
  | .ok i => seqExec c i
  | .error r => seqRejected c r

section Decoded

variable (c : Config) (fn : Nibble) (rA rB : RegId) (v : Word) (a : SeqState)

theorem seqDecoded_decodeMove : seqDecoded c (decodeMove c fn rA rB) a = seqMove (cond c fn a.flags) rA rB a := by
  unfold decodeMove cond
  cases Cond.ofIfun c fn with
  | none => rfl
  | some k => cases k <;> rfl

theorem seqDecoded_decodeJump : seqDecoded c (decodeJump c fn v) a = seqJump (cond c fn a.flags) v a := by
  unfold decodeJump cond
  cases Cond.ofIfun c fn with
  | none => rfl
  | some k => cases k <;> rfl

theorem seqDecoded_decodeAlu : seqDecoded c (decodeAlu c fn rA rB) a = seqAlu c fn rA rB a := by
  unfold decodeAlu
  cases h : AluFn.ofIfun c fn with
  | none => rfl
  | some k =>
    obtain rfl := ifun_of_aluFn_ofIfun h
    cases k <;> rfl

/-- A move writes its source when its condition holds, and else nothing (R152, R212 to R218). -/
theorem stagedOutcome_move :
    stagedOutcome c a (fieldsRecord .rrmovq fn rA rB v a.pc) = seqMove (cond c fn a.flags) rA rB a := by
  refine stagedOutcome_of_no_access rfl rfl rfl ⟨?_, rfl, rfl, rfl⟩
  let r := fieldsRecord .rrmovq fn rA rB v a.pc
  have hvalE : (stagedM c a r).valE = operand a.regs rA :=
    (stagedM_valE_of_ne_opq c a r nofun).trans ((BitVec.zero_add _).trans (stagedM_valA_of_source c a r nofun nofun))
  change regWrite a.regs (dstEAfterCond .rrmovq (cond c fn a.flags) rB) (stagedM c a r).valE = _
  rw [hvalE]
  cases cond c fn a.flags <;> rfl

/-- A jump goes to its constant when its condition holds, and else to the next instruction (R100, R240 to R246). -/
theorem stagedOutcome_jump :
    stagedOutcome c a (fieldsRecord .jxx fn rA rB v a.pc) = seqJump (cond c fn a.flags) v a := by
  refine stagedOutcome_of_no_access rfl rfl rfl ⟨rfl, rfl, rfl, ?_⟩
  change selectPC _ ⟨_, .jxx, cond c fn a.flags, _, _, _, _⟩ _ = _
  cases cond c fn a.flags <;> rfl

theorem stagedOutcome_irmovq :
    stagedOutcome c a (fieldsRecord .irmovq fn rA rB v a.pc) = seqIrmovq rB v a := by
  refine stagedOutcome_of_no_access rfl rfl rfl ⟨?_, rfl, rfl, rfl⟩
  let r := fieldsRecord .irmovq fn rA rB v a.pc
  have hvalE : (stagedM c a r).valE = v := (stagedM_valE_of_ne_opq c a r nofun).trans (BitVec.zero_add v)
  exact congrArg (regWrite a.regs rB) hvalE

/-- An ALU operation writes its result and its flags (R154, R222 to R225). -/
theorem stagedOutcome_alu :
    stagedOutcome c a (fieldsRecord .opq fn rA rB v a.pc) = seqAlu c fn rA rB a := by
  let r := fieldsRecord .opq fn rA rB v a.pc
  have hvalA : (stagedM c a r).valA = operand a.regs rA := stagedM_valA_of_source c a r nofun nofun
  have hvalB : (stagedE c a r).valB = operand a.regs rB := stagedE_valB c a r
  have hvalE : (stagedM c a r).valE = alu c fn (operand a.regs rA) (operand a.regs rB) := by
    rw [stagedM_valE_of_opq c a r rfl, hvalA, hvalB]
    rfl
  refine stagedOutcome_of_no_access rfl rfl rfl ⟨congrArg (regWrite a.regs rB) hvalE, ?_, rfl, rfl⟩
  change aluFlags c fn (stagedM c a r).valA (stagedE c a r).valB (stagedM c a r).valE a.flags = _
  rw [hvalA, hvalB, hvalE]
  rfl

theorem stagedOutcome_rmmovq :
    stagedOutcome c a (fieldsRecord .rmmovq fn rA rB v a.pc) = seqRmmovq c rA rB v a := by
  let r := fieldsRecord .rmmovq fn rA rB v a.pc
  have haddr : memAddr (stagedM c a r) = operand a.regs rB + v := stagedM_valE_of_base c a r nofun rfl
  have hvalA : (stagedM c a r).valA = operand a.regs rA := stagedM_valA_of_source c a r nofun nofun
  refine stagedOutcome_of_access rfl rfl haddr ⟨rfl, rfl, ?_, rfl⟩
  rw [stagedNext_mem_of_store c a r rfl, haddr, hvalA]
  rfl

theorem stagedOutcome_mrmovq :
    stagedOutcome c a (fieldsRecord .mrmovq fn rA rB v a.pc) = seqMrmovq c rA rB v a := by
  let r := fieldsRecord .mrmovq fn rA rB v a.pc
  have haddr : memAddr (stagedM c a r) = operand a.regs rB + v := stagedM_valE_of_base c a r nofun rfl
  refine stagedOutcome_of_access rfl rfl haddr ⟨?_, rfl, rfl, rfl⟩
  rw [stagedNext_regs, stagedMem_valM_of_load c a r rfl, haddr]
  rfl

/-- `call` and `pushq` subtract 8 from the stack pointer (R141, R142). -/
theorem stagedM_valE_of_push {r : FetchOut} (h : r.icode = .call ∨ r.icode = .pushq) :
    (stagedM c a r).valE = operand a.regs c.rsp - 8 := by
  have hicode : (stagedE c a r).icode = r.icode := rfl
  rw [BitVec.sub_eq_add_neg]
  rcases h with h | h <;>
  · rw [stagedM_valE_of_base c a r (by simp [h]) (by simp [aluB, hicode, h])]
    simp only [aluA, hicode, h, srcB]

theorem stagedOutcome_call :
    stagedOutcome c a (fieldsRecord .call fn rA rB v a.pc) = seqCall c v a := by
  let r := fieldsRecord .call fn rA rB v a.pc
  have hvalE : (stagedM c a r).valE = operand a.regs c.rsp - 8 := stagedM_valE_of_push c a (.inl rfl)
  have haddr : memAddr (stagedM c a r) = operand a.regs c.rsp - 8 := hvalE
  refine stagedOutcome_of_access rfl rfl haddr ⟨?_, rfl, ?_, rfl⟩
  · rw [stagedNext_regs, hvalE]
    rfl
  · rw [stagedNext_mem_of_store c a r rfl, haddr]
    rfl

theorem stagedOutcome_pushq :
    stagedOutcome c a (fieldsRecord .pushq fn rA rB v a.pc) = seqPushq c rA a := by
  let r := fieldsRecord .pushq fn rA rB v a.pc
  have hvalE : (stagedM c a r).valE = operand a.regs c.rsp - 8 := stagedM_valE_of_push c a (.inr rfl)
  have haddr : memAddr (stagedM c a r) = operand a.regs c.rsp - 8 := hvalE
  have hvalA : (stagedM c a r).valA = operand a.regs rA := stagedM_valA_of_source c a r nofun nofun
  refine stagedOutcome_of_access rfl rfl haddr ⟨?_, rfl, ?_, rfl⟩
  · rw [stagedNext_regs, hvalE]
    rfl
  · rw [stagedNext_mem_of_store c a r rfl, haddr, hvalA]
    rfl

theorem stagedOutcome_ret :
    stagedOutcome c a (fieldsRecord .ret fn rA rB v a.pc) = seqRet c a := by
  let r := fieldsRecord .ret fn rA rB v a.pc
  have haddr : memAddr (stagedM c a r) = operand a.regs c.rsp := stagedM_valA_of_source c a r nofun nofun
  have hvalE : (stagedM c a r).valE = operand a.regs c.rsp + 8 := stagedM_valE_of_base c a r nofun rfl
  refine stagedOutcome_of_access rfl rfl haddr ⟨?_, rfl, rfl, ?_⟩
  · rw [stagedNext_regs, hvalE]
    rfl
  · exact (stagedMem_valM_of_load c a r rfl).trans (congrArg (memRead8 c a.mem) haddr)

theorem stagedOutcome_popq :
    stagedOutcome c a (fieldsRecord .popq fn rA rB v a.pc) = seqPopq c rA a := by
  let r := fieldsRecord .popq fn rA rB v a.pc
  have haddr : memAddr (stagedM c a r) = operand a.regs c.rsp := stagedM_valA_of_source c a r nofun nofun
  have hvalE : (stagedM c a r).valE = operand a.regs c.rsp + 8 := stagedM_valE_of_base c a r nofun rfl
  refine stagedOutcome_of_access rfl rfl haddr ⟨?_, rfl, rfl, rfl⟩
  rw [stagedNext_regs, hvalE, stagedMem_valM_of_load c a r rfl, haddr]
  rfl

/-- The stages make of every spelled instruction, and of every rejected one, its net effect in the sequential view. -/
theorem seqDecoded_decodeFields (ic : Icode) :
    seqDecoded c (decodeFields c ic fn rA rB v) a = stagedOutcome c a (fieldsRecord ic fn rA rB v a.pc) := by
  cases ic with
  | halt | illegal => rfl
  | nop => rfl
  | rrmovq => exact (seqDecoded_decodeMove ..).trans (stagedOutcome_move ..).symm
  | irmovq => exact (stagedOutcome_irmovq ..).symm
  | rmmovq => exact (stagedOutcome_rmmovq ..).symm
  | mrmovq => exact (stagedOutcome_mrmovq ..).symm
  | opq => exact (seqDecoded_decodeAlu ..).trans (stagedOutcome_alu ..).symm
  | jxx => exact (seqDecoded_decodeJump ..).trans (stagedOutcome_jump ..).symm
  | call => exact (stagedOutcome_call ..).symm
  | ret => exact (stagedOutcome_ret ..).symm
  | pushq => exact (stagedOutcome_pushq ..).symm
  | popq => exact (stagedOutcome_popq ..).symm

end Decoded

/-! ## What a record with a legal status can do (R103) -/

section LegalRecord

variable {c : Config} {a : SeqState} {r : FetchOut}

theorem stagedOutcome_eq_next_iff {b : SeqState} :
    stagedOutcome c a r = .next b ↔ (stagedW c a r).stat = .aok ∧ stagedNext c a r = b := by
  unfold stagedOutcome
  split <;> simp [*]

theorem stagedOutcome_eq_raise_iff {status : Stat} :
    stagedOutcome c a r = .raise status ↔ (stagedW c a r).stat ≠ .aok ∧ (stagedW c a r).stat = status := by
  unfold stagedOutcome
  split <;> simp [*]

theorem stagedW_stat : (stagedW c a r).stat = if memError c (stagedM c a r) then .adr else r.stat := rfl

/-- An instruction that commits is no HALT, whose status is its own (R103, R180). -/
theorem icode_ne_halt_of_aok (hr : LegalD (pendingD r)) (hstat : (stagedW c a r).stat = .aok) : r.icode ≠ .halt := by
  intro hhalt
  have haok : r.stat = .aok := by
    rw [stagedW_stat] at hstat
    split at hstat
    · cases hstat
    · exact hstat
  have hlegal : fetchStatLegal r.stat r.icode = true := hr.1
  rw [haok, hhalt] at hlegal
  cases hlegal

/-- Only a HALT, an illegal class or the forced NOP comes from Fetch with an abnormal status (R103). -/
theorem stat_eq_aok_of_fetchStatLegal {stat : Stat} {ic : Icode} (h : fetchStatLegal stat ic = true)
    (hlegal : ic.legal = true) (hhalt : ic ≠ .halt) (hnop : ic ≠ .nop) : stat = .aok := by
  cases stat <;> simp_all [fetchStatLegal]

theorem writesMem_eq_true_iff {ic : Icode} : writesMem ic = true ↔ ic = .rmmovq ∨ ic = .pushq ∨ ic = .call := by
  cases ic <;> simp [writesMem]

/-- So an instruction that writes flags or memory comes with status OK. -/
theorem stat_eq_aok_of_effect (hr : LegalD (pendingD r)) (h : r.icode = .opq ∨ writesMem r.icode = true) :
    r.stat = .aok := by
  have hlegal : fetchStatLegal r.stat r.icode = true := hr.1
  rw [writesMem_eq_true_iff] at h
  rcases h with h | h | h | h <;>
  · rw [h] at hlegal
    exact stat_eq_aok_of_fetchStatLegal hlegal rfl nofun nofun

/-- An instruction that stops the machine is no OPQ: an OPQ has status OK from Fetch and accesses no memory. -/
theorem icode_ne_opq_of_abnormal (hr : LegalD (pendingD r)) (hstat : (stagedW c a r).stat ≠ .aok) :
    r.icode ≠ .opq := by
  intro hopq
  have hicode : (stagedM c a r).icode = .opq := hopq
  have herror : memError c (stagedM c a r) = false := by
    rw [memError, hicode]
    rfl
  rw [stagedW_stat, herror] at hstat
  exact hstat (stat_eq_aok_of_effect hr (.inl hopq))

/-- A store that is carried out belongs to an instruction that commits. -/
theorem stagedMem_mem_of_abnormal (hr : LegalD (pendingD r)) (hstat : (stagedW c a r).stat ≠ .aok) :
    (stagedMem c a r).mem = a.mem := by
  refine memoryStage_mem_unchanged _ _ fun ⟨hstore, ha⟩ => hstat ?_
  have herror : memError c (stagedM c a r) = false := by rw [memError, ha, Bool.not_true, Bool.and_false]
  rw [stagedW_stat, herror]
  exact stat_eq_aok_of_effect hr (.inr hstore)

/-- An instruction that stops the machine writes no flag. -/
theorem stagedExe_flags_of_abnormal (hr : LegalD (pendingD r)) (hstat : (stagedW c a r).stat ≠ .aok) :
    (stagedExe c a r).flags = a.flags :=
  if_neg fun hset => icode_ne_opq_of_abnormal hr hstat (setCc_iff.1 hset).1

end LegalRecord

/-! ## The step of the sequential view is what the stages make of the fetched record -/

/-- The sequential step over a program text, which reads bytes through the decoder, has the outcome of the fetch stage's
record. -/
theorem seqStepText_eq_stagedOutcome (c : Config) (code : Memory) (a : SeqState) :
    seqStepText c code a = stagedOutcome c a (fetchStage c code a.pc) := by
  by_cases h : inBounds c a.pc = true
  · have hdecoded := seqDecoded_decodeFields c (loNibble (memByte c code a.pc)) (hiNibble (memByte c code (a.pc + 1)))
      (loNibble (memByte c code (a.pc + 1)))
      (constantIn (Icode.ofNibble c (hiNibble (memByte c code a.pc))) (laterBytes c code a.pc)) a
      (Icode.ofNibble c (hiNibble (memByte c code a.pc)))
    rw [fetchStage_inBounds h, ← longOf_laterBytes]
    refine Eq.trans ?_ hdecoded
    rw [seqStepText, fetchBytes_eq_cons h, decode_eq_map, decodeFirst, laterBytes_headD]
    cases decodeFields c _ _ _ _ _ <;> rfl
  · have hout : fetchStage c code a.pc = fetchedOutOfBounds a.pc := if_neg h
    rw [seqStepText, fetchBytes, if_neg h, hout]
    rfl

/-- Every instruction is spelled by some fields: those of its encoding. -/
theorem exists_decodeFields_eq_ok {c : Config} (hc : c.numbersDistinct = true) (i : Instr) :
    ∃ ic fn rA rB v, decodeFields c ic fn rA rB v = .ok i := by
  have hdecode := decode_encode hc i []
  cases hbytes : encode c i ++ [] with
  | nil => rw [hbytes] at hdecode; cases hdecode
  | cons b bs =>
    rw [hbytes] at hdecode
    exact ⟨_, _, _, _, _, (decode_cons_eq_ok hdecode).1⟩

/-- The net effect of an instruction is what the stages make of its record. -/
theorem seqExec_eq_stagedOutcome (i : Instr) (a : SeqState) :
    seqExec Config.machine i a = stagedOutcome Config.machine a (recordOf i a.pc) := by
  obtain ⟨ic, fn, rA, rB, v, hfields⟩ := exists_decodeFields_eq_ok machine_numbersDistinct i
  have heffect := seqDecoded_decodeFields Config.machine fn rA rB v a ic
  have hrecord := decodedRecord_decodeFields ic fn rA rB v [] a.pc
  rw [hfields] at heffect hrecord
  exact heffect.trans (congrArg (stagedOutcome Config.machine a) hrecord.symm)

end Sys2Proof.Machine
end

section
/-! PROOFS. The passage of every instruction through the pipeline from a ready state, against the sequential view
(spec/47_instructions_move_alu.md R210 to R231). -/

namespace Sys2Proof.Machine

section Passage

/-! At the machine's parameters the stages over the sequential view of a state are those of an instruction alone in
it. -/

theorem soloExe_eq_stagedExe (s : State) (r : FetchOut) : soloExe s r = stagedExe Config.machine (seqOf s) r := rfl
theorem soloMem_eq_stagedMem (s : State) (r : FetchOut) : soloMem s r = stagedMem Config.machine (seqOf s) r := rfl
theorem soloW_eq_stagedW (s : State) (r : FetchOut) : soloW s r = stagedW Config.machine (seqOf s) r := rfl

variable {s : State} {record : Word → FetchOut}

/-- An instruction alone in the pipeline completes with what the stages make of it. -/
theorem completesFrom_of_stagedOutcome (hs : Ready s) {r : FetchOut} (hr : record (fetchPC s) = r)
    (hlegal : LegalD (pendingD r)) {a : SeqState} (h : stagedOutcome Config.machine (seqOf s) r = .next a) {lost : Nat}
    (hpc : SoloNextPC s r a.pc lost) : CompletesFrom (issue record s) s a lost := by
  obtain ⟨hstat, rfl⟩ := stagedOutcome_eq_next_iff.1 h
  have hhalt : r.icode ≠ .halt := icode_ne_halt_of_aok hlegal hstat
  rw [← soloW_eq_stagedW] at hstat
  exact completesFrom_issue hs hr hstat hhalt rfl rfl rfl hpc

/-- An instruction alone in the pipeline stops the machine with the status that the stages give it. -/
theorem raisesFrom_of_stagedOutcome (hs : Ready s) {r : FetchOut} (hr : record (fetchPC s) = r)
    (hlegal : LegalD (pendingD r)) {status : Stat}
    (h : stagedOutcome Config.machine (seqOf s) r = .raise status) : RaisesFrom (issue record s) s status := by
  obtain ⟨hstat, hstatus⟩ := stagedOutcome_eq_raise_iff.1 h
  refine raisesFrom_issue hs hr hstatus (hstatus ▸ hstat) ?flags ?mem
  case flags =>
    rw [soloExe_eq_stagedExe]
    exact stagedExe_flags_of_abnormal hlegal hstat
  case mem =>
    rw [soloMem_eq_stagedMem]
    exact stagedMem_mem_of_abnormal hlegal hstat

end Passage

/-- A jump alone in the pipeline: the prediction when it is taken, and else the fall-through address, two cycles later
(R100, R108, R287). -/
theorem soloNextPC_jump (s : State) (k : Cond) (dest pc : Word) :
    SoloNextPC s (fetchedJ .jxx (k.ifun Config.machine) dest pc)
      (stagedNext Config.machine (seqOf s) (fetchedJ .jxx (k.ifun Config.machine) dest pc)).pc
      (if condHolds k s.flags then 0 else 2) := by
  have hcnd : (soloExe s (fetchedJ .jxx (k.ifun Config.machine) dest pc)).cnd = condHolds k s.flags := by
    change cond Config.machine (k.ifun Config.machine) s.flags = _
    rw [cond, cond_ofIfun_ifun machine_numbersDistinct]
  have hpc : (stagedNext Config.machine (seqOf s) (fetchedJ .jxx (k.ifun Config.machine) dest pc)).pc =
      selectPC ⟨dest⟩ ⟨.aok, .jxx, condHolds k s.flags, 0, pc + 9, rnone, rnone⟩ .neutral := by
    rw [← hcnd]
    rfl
  rw [hpc]
  cases hk : condHolds k s.flags with
  | true => exact ⟨fun _ => rfl, nofun, nofun⟩
  | false => exact ⟨nofun, fun _ => ⟨rfl, hcnd.trans hk, rfl⟩, nofun⟩

/-- Every instruction fetches on, after the cycles that R287 counts, at the next address the stages give. -/
theorem soloNextPC_recordOf (i : Instr) (s : State) :
    SoloNextPC s (recordOf i (fetchPC s)) (stagedNext Config.machine (seqOf s) (recordOf i (fetchPC s))).pc
      (lostCycles i s.flags) := by
  cases i with
  | jmp dest => exact soloNextPC_jump s .always dest _
  | jle dest => exact soloNextPC_jump s .le dest _
  | jl dest => exact soloNextPC_jump s .l dest _
  | je dest => exact soloNextPC_jump s .e dest _
  | jne dest => exact soloNextPC_jump s .ne dest _
  | jge dest => exact soloNextPC_jump s .ge dest _
  | jg dest => exact soloNextPC_jump s .g dest _
  | ret fn => exact ⟨nofun, nofun, fun _ => ⟨rfl, rfl⟩⟩
  | _ => exact ⟨fun _ => rfl, nofun, nofun⟩

/-- An instruction that the sequential view completes passes through the pipeline with that effect. -/
theorem completes_of_seqExec {i : Instr} {s : State} (hs : Ready s) {a : SeqState}
    (h : seqExec Config.machine i (seqOf s) = .next a) : Completes i s a (lostCycles i s.flags) := by
  rw [seqExec_eq_stagedOutcome] at h
  obtain ⟨-, rfl⟩ := stagedOutcome_eq_next_iff.1 h
  rw [Completes, exec_eq_issue]
  exact completesFrom_of_stagedOutcome hs rfl (legalD_recordOf i _) h (soloNextPC_recordOf i s)

/-- An instruction that raises a status in the sequential view stops the pipeline with it. -/
theorem raises_of_seqExec {i : Instr} {s : State} (hs : Ready s) {status : Stat}
    (h : seqExec Config.machine i (seqOf s) = .raise status) : Raises i s status := by
  rw [seqExec_eq_stagedOutcome] at h
  rw [Raises, exec_eq_issue]
  exact raisesFrom_of_stagedOutcome hs rfl (legalD_recordOf i _) h

/-- Settles O53: the stages alone have the outcome of the sequential view, and the pipeline that of the stages. -/
theorem pipelineRealisesTheNetEffect : Obligations.PipelineRealisesTheNetEffect := by
  unfold Obligations.PipelineRealisesTheNetEffect
  intro i s hs
  cases h : seqExec Config.machine i (seqOf s) with
  | next a => exact completes_of_seqExec hs h
  | raise status => exact raises_of_seqExec hs h

end Sys2Proof.Machine
end

section
/-! PROOFS. The instructions of spec/47_instructions_move_alu.md one by one, and the frame of the storing forms: each is
the passage of `completes_of_seqExec` or `raises_of_seqExec`, with the net effect written out. -/

namespace Sys2Proof.Machine

/-- Settles O40: the sequential view raises SHLT. -/
theorem haltStopsWithShlt : Obligations.HaltStopsWithShlt := by
  unfold Obligations.HaltStopsWithShlt
  intro s fn hs
  exact raises_of_seqExec hs rfl

/-- Settles O41: the net effect of `nop` is on the pc alone. -/
theorem nopCompletes : Obligations.NopCompletes := by
  unfold Obligations.NopCompletes
  intro s fn hs
  exact completes_of_seqExec hs rfl

/-- Settles O42: each of the seven moves has the net effect of its relation. -/
theorem movesComplete : Obligations.MovesComplete := by
  unfold Obligations.MovesComplete
  intro s rA rB hs
  exact ⟨completes_of_seqExec hs rfl, completes_of_seqExec hs rfl, completes_of_seqExec hs rfl,
    completes_of_seqExec hs rfl, completes_of_seqExec hs rfl, completes_of_seqExec hs rfl,
    completes_of_seqExec hs rfl⟩

/-- Settles O43: the net effect of `irmovq` is the constant in `x[rB]`. -/
theorem irmovqCompletes : Obligations.IrmovqCompletes := by
  unfold Obligations.IrmovqCompletes
  intro s fn rA rB v hs
  exact completes_of_seqExec hs rfl

/-- Settles O44: the sequential view completes or raises SADR as the address is admitted or not. -/
theorem rmmovqCompletesOrRaises : Obligations.RmmovqCompletesOrRaises := by
  unfold Obligations.RmmovqCompletesOrRaises
  intro s fn rA rB d hs
  exact ⟨fun ha => completes_of_seqExec hs (if_pos ha),
    fun ha => raises_of_seqExec hs (if_neg (Bool.eq_false_iff.1 ha))⟩

/-- Settles O45: the sequential view completes or raises SADR as the address is admitted or not. -/
theorem mrmovqCompletesOrRaises : Obligations.MrmovqCompletesOrRaises := by
  unfold Obligations.MrmovqCompletesOrRaises
  intro s fn rA rB d hs
  exact ⟨fun ha => completes_of_seqExec hs (if_pos ha),
    fun ha => raises_of_seqExec hs (if_neg (Bool.eq_false_iff.1 ha))⟩

/-! ## The flags of the ALU operations (R154, R155) -/

section AluFlags

variable (a b : Word) (old : Flags)

theorem machine_aluFlags_add :
    aluFlags Config.machine (AluFn.add.ifun Config.machine) a b (b + a) old =
      ⟨decide (b + a = 0), (b + a).msb, decide (b.toInt + a.toInt < -2 ^ 63 ∨ 2 ^ 63 ≤ b.toInt + a.toInt)⟩ := by
  have hof := Bool.eq_iff_iff.2 ((overflowIsSignedRangeOverflow a b).1.trans (decide_eq_true_iff).symm)
  rw [← hof]
  rfl

theorem machine_aluFlags_sub :
    aluFlags Config.machine (AluFn.sub.ifun Config.machine) a b (b - a) old =
      ⟨decide (b - a = 0), (b - a).msb, decide (b.toInt - a.toInt < -2 ^ 63 ∨ 2 ^ 63 ≤ b.toInt - a.toInt)⟩ := by
  have hof := Bool.eq_iff_iff.2 ((overflowIsSignedRangeOverflow a b).2.trans (decide_eq_true_iff).symm)
  rw [← hof]
  rfl

end AluFlags

/-- Settles O46: the flags of the sequential view are the result's zero test and sign, and the signed overflow
(O24) of add and sub. -/
theorem aluOperationsComplete : Obligations.AluOperationsComplete := by
  unfold Obligations.AluOperationsComplete
  intro s rA rB hs a b result
  refine ⟨completes_of_seqExec hs ?add, completes_of_seqExec hs ?sub, completes_of_seqExec hs rfl,
    completes_of_seqExec hs rfl⟩
  case add => exact congrArg (fun f => SeqOutcome.next ⟨_, f, _, _⟩) (machine_aluFlags_add a b s.flags)
  case sub => exact congrArg (fun f => SeqOutcome.next ⟨_, f, _, _⟩) (machine_aluFlags_sub a b s.flags)

/-! ## The storing forms, byte by byte (R44, R220, R247, R249) -/

theorem operand_of_ne_rnone {x : Regs} {r : RegId} (h : r ≠ rnone) : operand x r = regRead x r := if_neg h

/-- The net effect of a storing form whose address is admitted. -/
theorem seqExec_of_storing_form {i : Instr} {s : State} {addr v : Word}
    (hi : (∃ fn rA rB d, i = .rmmovq fn rA rB d ∧ addr = operand s.regs rB + d ∧ v = operand s.regs rA) ∨
      (∃ fn rA rB, i = .pushq fn rA rB ∧ addr = regRead s.regs Config.machine.rsp - 8 ∧ v = operand s.regs rA) ∨
      (∃ fn dest, i = .call fn dest ∧ addr = regRead s.regs Config.machine.rsp - 8 ∧ v = fetchPC s + 9))
    (ha : admitted Config.machine addr = true) :
    ∃ a : SeqState, seqExec Config.machine i (seqOf s) = .next a ∧
      a.mem = memWrite8 Config.machine s.mem addr v ∧ a.flags = s.flags ∧
      (a.regs = s.regs ∨
        a.regs = regWrite s.regs Config.machine.rsp addr ∧ ∀ fn rA rB d, i ≠ .rmmovq fn rA rB d) := by
  rw [← operand_of_ne_rnone (rsp_ne_rnone _)] at hi
  rcases hi with ⟨fn, rA, rB, d, rfl, rfl, rfl⟩ | ⟨fn, rA, rB, rfl, rfl, rfl⟩ | ⟨fn, dest, rfl, rfl, rfl⟩
  · exact ⟨_, if_pos ha, rfl, rfl, .inl rfl⟩
  · exact ⟨_, if_pos ha, rfl, rfl, .inr ⟨rfl, nofun⟩⟩
  · exact ⟨_, if_pos ha, rfl, rfl, .inr ⟨rfl, nofun⟩⟩

/-- Settles O52: the net effect of the three forms is one admitted `memWrite8`, whose bytes are those of the memory
contract, and at most a write of the stack pointer. -/
theorem storingFormsWriteExactlyEightBytes : Obligations.StoringFormsWriteExactlyEightBytes := by
  unfold Obligations.StoringFormsWriteExactlyEightBytes
  intro s i addr v hs hwf hi ha
  obtain ⟨a, heffect, hmem, hflags, hregs⟩ := seqExec_of_storing_form hi ha
  obtain ⟨t1, t2, t3, t4, t5, hpassage, ⟨-, -, -, -, hregs5⟩, ⟨-, -, hflags3⟩, ⟨-, -, -, hmem4⟩, -⟩ :=
    completes_of_seqExec hs heffect
  rw [hmem] at hmem4
  refine ⟨t1, t2, t3, t4, t5, hpassage, fun k hk => ?outside, fun k hk => ?inside, hflags3.trans hflags,
    fun r hr => ?regs, fun hrmmovq => ?rmmovq⟩
  case outside => rw [hmem4, get_memWrite8_outside hk]
  case inside => rw [hmem4, get_memWrite8_inside hwf ha hk]
  case regs =>
    rcases hregs with hregs | ⟨hregs, -⟩
    · rw [hregs5, hregs]
    · rw [hregs5, hregs, regRead_regWrite_ne hr]
  case rmmovq =>
    obtain ⟨fn, rA, rB, d, hi⟩ := hrmmovq
    exact hregs5.trans (hregs.resolve_right fun h => h.2 fn rA rB d hi)

end Sys2Proof.Machine
end

section
/-! PROOFS. The pipeline over a fixed program text against the sequential view, at every value of the parameters
(spec/47_instructions_move_alu.md R230, R231): what each pipeline register holds of the sequential run, and that a clock
cycle keeps it. -/

namespace Sys2Proof.Machine

/-! ## What stands at the boundary between two stages -/

/-- What the stages behind a boundary hold of the sequential run. -/
inductive Front where
  /-- The run from this state on. -/
  | run (a : SeqState)
  /-- Nothing yet: the RETURN ahead drains, and the run goes on from this state. -/
  | drained (a : SeqState)
  /-- Instructions that take no effect: a mispredicted jump or an instruction that stops the machine is ahead. -/
  | off

namespace Front

/-- A completed instruction is followed by the run, one that stops the machine is not. -/
def ofOutcome : SeqOutcome → Front
  | .next b => .run b
  | .raise _ => .off

/-- Behind a RETURN that has not reached W nothing of the run stands yet. -/
def hold : Front → Front
  | .run a => .drained a
  | .drained a => .drained a
  | .off => .off

/-- The run goes on when the RETURN is in W. -/
def resume : Front → Front
  | .run a => .run a
  | .drained a => .run a
  | .off => .off

/-- The state at the boundary; `a`, the state before it, when the instruction ahead stops the machine. -/
def stateOr (a : SeqState) : Front → SeqState
  | .run b => b
  | .drained b => b
  | .off => a

@[simp] theorem resume_hold (p : Front) : p.hold.resume = p.resume := by cases p <;> rfl
@[simp] theorem stateOr_hold (a : SeqState) (p : Front) : p.hold.stateOr a = p.stateOr a := by cases p <;> rfl
@[simp] theorem stateOr_resume (a : SeqState) (p : Front) : p.resume.stateOr a = p.stateOr a := by cases p <;> rfl
@[simp] theorem resume_ofOutcome (o : SeqOutcome) : (ofOutcome o).resume = ofOutcome o := by cases o <;> rfl

theorem ofOutcome_eq_run_iff {o : SeqOutcome} {b : SeqState} : ofOutcome o = .run b ↔ o = .next b := by
  cases o <;> simp [ofOutcome]

theorem ofOutcome_eq_off_iff {o : SeqOutcome} : ofOutcome o = .off ↔ ∃ status, o = .raise status := by
  cases o <;> simp [ofOutcome]

theorem hold_ne_run {p : Front} {b : SeqState} : p.hold ≠ .run b := by cases p <;> nofun

theorem resume_eq_off_iff {p : Front} : p.resume = .off ↔ p = .off := by cases p <;> simp [resume]

theorem ofOutcome_of_hold_eq_drained {o : SeqOutcome} {b : SeqState} (h : (ofOutcome o).hold = .drained b) :
    o = .next b := by
  cases o <;> simp_all [hold, ofOutcome]

end Front

section Text

variable (c : Config) (code : Memory) (a : SeqState)

/-- The record that Fetch reads from the text at the sequential state's address. -/
def textRecord : FetchOut := fetchStage c code a.pc

/-- What follows the instruction at `a` when it is in W. -/
def frontW : Front := .ofOutcome (stagedOutcome c a (textRecord c code a))

/-- What follows it when it is in M: behind a RETURN nothing. -/
def frontM : Front := if (textRecord c code a).icode = .ret then (frontW c code a).hold else frontW c code a

/-- What follows it when it is in E or D: behind a mispredicted jump nothing that takes effect. -/
def frontE : Front :=
  if (textRecord c code a).icode = .jxx ∧ (stagedExe c a (textRecord c code a)).cnd = false then .off
  else frontM c code a

theorem legalD_textRecord : LegalD (pendingD (textRecord c code a)) := legalD_fetchStage c code a.pc

variable {c code a} {b : SeqState}

theorem frontW_eq_run_iff : frontW c code a = .run b ↔ seqStepText c code a = .next b := by
  rw [frontW, Front.ofOutcome_eq_run_iff, seqStepText_eq_stagedOutcome, textRecord]

theorem eq_stagedNext_of_frontW (h : frontW c code a = .run b) : b = stagedNext c a (textRecord c code a) :=
  (stagedOutcome_eq_next_iff.1 (Front.ofOutcome_eq_run_iff.1 h)).2.symm

theorem frontW_eq_off_iff : frontW c code a = .off ↔ (stagedW c a (textRecord c code a)).stat ≠ .aok := by
  simp [frontW, Front.ofOutcome_eq_off_iff, stagedOutcome_eq_raise_iff]

theorem frontW_ne_drained : frontW c code a ≠ .drained b := by
  unfold frontW
  cases stagedOutcome c a (textRecord c code a) <;> nofun

theorem frontM_eq_run_iff :
    frontM c code a = .run b ↔ (textRecord c code a).icode ≠ .ret ∧ frontW c code a = .run b := by
  unfold frontM
  split <;> simp [*, Front.hold_ne_run]

theorem frontM_eq_drained (h : frontM c code a = .drained b) :
    (textRecord c code a).icode = .ret ∧ frontW c code a = .run b := by
  unfold frontM at h
  split at h
  · next hret => exact ⟨hret, Front.ofOutcome_eq_run_iff.2 (Front.ofOutcome_of_hold_eq_drained h)⟩
  · exact absurd h frontW_ne_drained

theorem resume_frontM : (frontM c code a).resume = frontW c code a := by
  unfold frontM frontW
  split <;> simp

theorem frontE_eq_run_iff :
    frontE c code a = .run b ↔
      ¬((textRecord c code a).icode = .jxx ∧ (stagedExe c a (textRecord c code a)).cnd = false) ∧
        frontM c code a = .run b := by
  unfold frontE
  split <;> simp [*]

theorem icode_of_frontE_eq_drained (h : frontE c code a = .drained b) : (textRecord c code a).icode = .ret := by
  unfold frontE at h
  split at h
  · cases h
  · exact (frontM_eq_drained h).1

theorem frontE_ne_run_of_ret (h : (textRecord c code a).icode = .ret) : frontE c code a ≠ .run b :=
  fun hrun => (frontM_eq_run_iff.1 (frontE_eq_run_iff.1 hrun).2).1 h

/-- An instruction that stops the machine changes no flag and no byte, so the boundary behind it has what the stages
leave. -/
theorem stateOr_frontM :
    ((frontM c code a).stateOr a).flags = (stagedExe c a (textRecord c code a)).flags ∧
      ((frontM c code a).stateOr a).mem = (stagedMem c a (textRecord c code a)).mem := by
  have hstate : (frontM c code a).stateOr a = (frontW c code a).stateOr a := by
    unfold frontM
    split <;> simp
  rw [hstate, frontW]
  cases h : stagedOutcome c a (textRecord c code a) with
  | next b =>
    obtain ⟨-, rfl⟩ := stagedOutcome_eq_next_iff.1 h
    exact ⟨rfl, rfl⟩
  | raise status =>
    obtain ⟨hstat, -⟩ := stagedOutcome_eq_raise_iff.1 h
    exact ⟨(stagedExe_flags_of_abnormal (legalD_textRecord c code a) hstat).symm,
      (stagedMem_mem_of_abnormal (legalD_textRecord c code a) hstat).symm⟩

end Text

/-! ## What a pipeline register holds -/

/-- Between the boundaries `p` and `q` a pipeline register holds a NOP without an effect, or the instruction at the
state of `p` as the stages bring it there, or what takes no effect. -/
inductive Slot {ρ : Type} (quiet : ρ → Prop) (image : SeqState → ρ) (behind : SeqState → Front)
    (p : Front) (x : ρ) (q : Front) : Prop
  | empty (hquiet : quiet x) (hq : q = p)
  | holds (a : SeqState) (hp : p = .run a) (hx : x = image a) (hq : q = behind a)
  | squashed (hp : p = .off) (hq : q = .off)

/-- A NOP in D with status OK. -/
def QuietD (D : DReg) : Prop := D.stat = .aok ∧ D.icode = .nop

theorem quietD_bubble : QuietD .bubble := ⟨rfl, rfl⟩
theorem quietE_bubble : QuietE .bubble := ⟨rfl, rfl, rfl, rfl⟩
theorem quietM_bubble : QuietM .bubble := ⟨rfl, rfl, rfl, rfl⟩

section Slots

variable (c : Config) (code : Memory)

/-- `Slot` of D, by the record that Fetch reads from the text. -/
def SlotD : Front → DReg → Front → Prop :=
  Slot QuietD (fun a => pendingD (textRecord c code a)) (frontE c code)

/-- `Slot` of E, by the decoded instruction. -/
def SlotE : Front → EReg → Front → Prop :=
  Slot QuietE (fun a => stagedE c a (textRecord c code a)) (frontE c code)

/-- `Slot` of M, by what Execute makes of it. -/
def SlotM : Front → MReg → Front → Prop :=
  Slot QuietM (fun a => stagedM c a (textRecord c code a)) (frontM c code)

/-- `Slot` of W, by what the Memory stage makes of it. -/
def SlotW : Front → WReg → Front → Prop :=
  Slot QuietW (fun a => stagedW c a (textRecord c code a)) (frontW c code)

end Slots

section SlotRules

variable {ρ : Type} {quiet : ρ → Prop} {image : SeqState → ρ} {behind : SeqState → Front} {p q : Front}
  {x : ρ}

theorem Slot.eq_of_ne_run (h : Slot quiet image behind p x q) (hp : ∀ a, p ≠ .run a) : q = p := by
  cases h with
  | empty hquiet hq => exact hq
  | holds a hrun hx hq => exact absurd hrun (hp a)
  | squashed hoff hq => rw [hoff, hq]

theorem Slot.quiet_of_drained {a : SeqState} (h : Slot quiet image behind (.drained a) x q) :
    quiet x ∧ q = .drained a := by
  cases h with
  | empty hquiet hq => exact ⟨hquiet, hq⟩
  | holds b hp hx hq => cases hp
  | squashed hp hq => cases hp

/-- From the run on: a NOP, or the run's instruction. -/
theorem Slot.cases_of_run {a : SeqState} (h : Slot quiet image behind (.run a) x q) :
    (quiet x ∧ q = .run a) ∨ (x = image a ∧ q = behind a) := by
  cases h with
  | empty hquiet hq => exact .inl ⟨hquiet, hq⟩
  | holds b hp hx hq =>
    cases hp
    exact .inr ⟨hx, hq⟩
  | squashed hp hq => cases hp

theorem Slot.off : Slot quiet image behind .off x .off := .squashed rfl rfl

end SlotRules

/-! ## What the slots say of the registers -/

section SlotFacts

variable {c : Config} {code : Memory} {a b : SeqState} {p q : Front}

/-- W commits what takes the run from one boundary to the next (R181). -/
theorem SlotW.regs {W : WReg} (h : SlotW c code (.run a) W (.run b)) : b.regs = commit W a.regs := by
  rcases h.cases_of_run with ⟨⟨-, -, hdE, hdM⟩, hq⟩ | ⟨rfl, hq⟩
  · cases hq
    rw [commit, hdE, hdM, regWrite_rnone, regWrite_rnone]
  · rw [eq_stagedNext_of_frontW hq.symm]
    rfl

/-- W holds an abnormal status exactly when the instruction in it stops the machine. -/
theorem SlotW.stat {W : WReg} (h : SlotW c code (.run a) W q) : W.stat = .aok ↔ q ≠ .off := by
  rcases h.cases_of_run with ⟨⟨hstat, -⟩, rfl⟩ | ⟨rfl, rfl⟩
  · simp [hstat]
  · rw [Ne, frontW_eq_off_iff, not_not]

theorem SlotW.ne_drained {W : WReg} (h : SlotW c code (.run a) W q) : q ≠ .drained b := by
  rcases h.cases_of_run with ⟨-, rfl⟩ | ⟨-, rfl⟩
  · nofun
  · exact frontW_ne_drained

/-- W lets the machine run on unless its instruction stops it: a HALT does (R180). -/
theorem SlotW.wStop {W : WReg} (h : SlotW c code (.run a) W q) : wStop W = true ↔ q = .off := by
  rw [wStop_iff]
  have hstat := h.stat
  refine ⟨fun hstop => ?_, fun hq => .inl fun haok => hstat.1 haok hq⟩
  by_contra hne
  have haok := hstat.2 hne
  refine hstop.elim (· haok) ?_
  rcases h.cases_of_run with ⟨⟨-, hnop, -⟩, -⟩ | ⟨rfl, -⟩
  · simp [hnop]
  · exact icode_ne_halt_of_aok (legalD_textRecord c code a) haok

/-- The run's next state is the same one, or one sequential instruction on. -/
theorem SlotW.seqStep {W : WReg} (h : SlotW c code (.run a) W (.run b)) :
    b = a ∨ seqStepText c code a = .next b := by
  rcases h.cases_of_run with ⟨-, hq⟩ | ⟨-, hq⟩
  · cases hq
    exact .inl rfl
  · exact .inr (frontW_eq_run_iff.1 hq.symm)

/-- The instruction in W that stops the machine raises its status in the sequential view. -/
theorem SlotW.raises {W : WReg} (h : SlotW c code (.run a) W .off) : seqStepText c code a = .raise W.stat := by
  rcases h.cases_of_run with ⟨-, hq⟩ | ⟨rfl, hq⟩
  · cases hq
  · rw [seqStepText_eq_stagedOutcome]
    exact stagedOutcome_eq_raise_iff.2 ⟨frontW_eq_off_iff.1 hq.symm, rfl⟩

/-- A RETURN in M has the run drained behind it. -/
theorem SlotM.ne_run_of_ret {M : MReg} (h : SlotM c code (.run a) M q) (hret : M.icode = .ret) : q ≠ .run b := by
  rcases h.cases_of_run with ⟨⟨-, hnop, -⟩, -⟩ | ⟨rfl, rfl⟩
  · rw [hnop] at hret
    cases hret
  · exact fun hrun => (frontM_eq_run_iff.1 hrun).1 hret

/-- So has one in E or D. -/
theorem Slot.ne_run_of_ret {ρ : Type} {quiet : ρ → Prop} {image : SeqState → ρ} {x : ρ} {icode : ρ → Icode}
    (hquiet : quiet x → icode x = .nop) (himage : ∀ a, icode (image a) = (textRecord c code a).icode)
    (h : Slot quiet image (frontE c code) p x q) (hret : icode x = .ret) : q ≠ .run b := by
  cases h with
  | empty hx hq => exact nomatch (hquiet hx).symm.trans hret
  | holds a hp hx hq =>
    subst hx
    exact hq ▸ frontE_ne_run_of_ret ((himage a).symm.trans hret)
  | squashed hp hq => exact hq ▸ nofun

/-- And where the run is drained that was not before, a RETURN stands. -/
theorem Slot.icode_of_drained {ρ : Type} {quiet : ρ → Prop} {image : SeqState → ρ} {x : ρ}
    {icode : ρ → Icode} (himage : ∀ a, icode (image a) = (textRecord c code a).icode)
    (h : Slot quiet image (frontE c code) p x (.drained b)) (hp : ∀ a, p ≠ .drained a) : icode x = .ret := by
  cases h with
  | empty hx hq => exact absurd hq.symm (hp b)
  | holds a hrun hx hq =>
    subst hx
    exact (himage a).trans (icode_of_frontE_eq_drained hq.symm)
  | squashed hoff hq => cases hq

theorem SlotE.ne_run_of_ret {E : EReg} (h : SlotE c code p E q) (hret : E.icode = .ret) : q ≠ .run b :=
  Slot.ne_run_of_ret (icode := EReg.icode) (fun hquiet => hquiet.2.1) (fun _ => rfl) h hret

theorem SlotD.ne_run_of_ret {D : DReg} (h : SlotD c code p D q) (hret : D.icode = .ret) : q ≠ .run b :=
  Slot.ne_run_of_ret (icode := DReg.icode) (fun hquiet => hquiet.2) (fun _ => rfl) h hret

theorem SlotE.icode_of_drained {E : EReg} (h : SlotE c code p E (.drained b)) (hp : ∀ a, p ≠ .drained a) :
    E.icode = .ret :=
  Slot.icode_of_drained (icode := EReg.icode) (fun _ => rfl) h hp

theorem SlotD.icode_of_drained {D : DReg} (h : SlotD c code p D (.drained b)) (hp : ∀ a, p ≠ .drained a) :
    D.icode = .ret :=
  Slot.icode_of_drained (icode := DReg.icode) (fun _ => rfl) h hp

end SlotFacts

/-! ## One stage further -/

section Transfer

variable {c : Config} {code : Memory} {s : State} {a : SeqState} {p q : Front}

/-- From M to W. -/
theorem slotW_pendingW (h : SlotM c code (.run a) s.M q) (hmem : s.mem = a.mem) :
    SlotW c code (.run a) (pendingW s.M (memOut c s)) q.resume := by
  rcases h.cases_of_run with ⟨hquiet, rfl⟩ | ⟨hM, rfl⟩
  · exact .empty (quietW_pendingW hquiet) rfl
  · refine .holds a rfl ?_ resume_frontM
    rw [memOut, hmem, hM]
    rfl

theorem memOut_mem_of_slotM (h : SlotM c code (.run a) s.M q) (hmem : s.mem = a.mem) :
    (memOut c s).mem = (q.stateOr a).mem := by
  rcases h.cases_of_run with ⟨hquiet, rfl⟩ | ⟨hM, rfl⟩
  · rw [memOut_of_quietM hquiet]
    exact hmem
  · rw [stateOr_frontM.2, memOut, hmem, hM]
    rfl

theorem memOut_stat_of_slotM (h : SlotM c code (.run a) s.M q) (hmem : s.mem = a.mem) :
    (memOut c s).stat = .aok ↔ q ≠ .off :=
  (slotW_pendingW h hmem).stat.trans (not_congr Front.resume_eq_off_iff)

theorem mispredictNow_iff_cnd : mispredictNow c s = true ↔ s.E.icode = .jxx ∧ (exeOut c s).cnd = false := by
  simp [mispredictNow, mispredict]

/-- Behind statuses that are OK, Execute computes for the run's instruction what the stages make of it. -/
theorem exeOut_of_image (hE : s.E = stagedE c a (textRecord c code a)) (hflags : s.flags = a.flags)
    (hm : (memOut c s).stat = .aok) (hw : s.W.stat = .aok) :
    exeOut c s = stagedExe c a (textRecord c code a) := by
  rw [exeOut, hm, hw, hE, hflags, stagedExe]

theorem mispredictNow_iff_of_image (hE : s.E = stagedE c a (textRecord c code a)) (hflags : s.flags = a.flags)
    (hm : (memOut c s).stat = .aok) (hw : s.W.stat = .aok) :
    mispredictNow c s = true ↔
      (textRecord c code a).icode = .jxx ∧ (stagedExe c a (textRecord c code a)).cnd = false := by
  have hicode : s.E.icode = (textRecord c code a).icode := by rw [hE]; rfl
  rw [mispredictNow_iff_cnd, exeOut_of_image hE hflags hm hw, hicode]

/-- From E to M. The boundary behind the instruction stays what it was, but for a mispredicted jump: behind it nothing
of the run stood while it was in E, and the run goes on at its fall-through address. -/
theorem slotM_pendingM (h : SlotE c code (.run a) s.E q) (hflags : s.flags = a.flags)
    (hm : (memOut c s).stat = .aok) (hw : s.W.stat = .aok) :
    ∃ q', SlotM c code (.run a) (pendingM s.E (exeOut c s)) q' ∧ (exeOut c s).flags = (q'.stateOr a).flags ∧
      (mispredictNow c s = false → q' = q) ∧
      (mispredictNow c s = true → ∀ b, q' = .run b → b.pc = s.E.valA) := by
  rcases h.cases_of_run with ⟨hquiet, rfl⟩ | ⟨hE, rfl⟩
  · refine ⟨.run a, .empty (quietM_pendingM hquiet) rfl, (exeOut_flags_of_quietE hquiet).trans hflags, fun _ => rfl,
      fun hmis => ?_⟩
    have hjump := (mispredictNow_iff.1 hmis).1
    rw [hquiet.2.1] at hjump
    cases hjump
  · have hexe := exeOut_of_image hE hflags hm hw
    have hmis := mispredictNow_iff_of_image hE hflags hm hw
    refine ⟨frontM c code a, .holds a rfl (by rw [hexe, hE]; rfl) rfl, hexe ▸ stateOr_frontM.1.symm, fun hno => ?_,
      fun hyes b hb => ?_⟩
    · exact (if_neg (hmis.not.1 (Bool.eq_false_iff.1 hno))).symm
    · rw [eq_stagedNext_of_frontW (frontM_eq_run_iff.1 hb).2, hE]
      exact selectPC_of_mispredicted (hmis.1 hyes)

/-- From D to E, when Decode reads the registers that the run has there. -/
theorem slotE_pendingE (h : SlotD c code p s.D q)
    (hdec : ∀ b, p = .run b → decOut c s = decodeStage c b.regs noForwards s.D) :
    SlotE c code p (pendingE s.D (decOut c s)) q := by
  cases h with
  | empty hquiet hq => exact .empty (quietE_pendingE hquiet.1 hquiet.2) hq
  | holds b hp hx hq => exact .holds b hp (by rw [hdec b hp, hx]; rfl) hq
  | squashed hp hq => exact .squashed hp hq

end Transfer

/-! ## Forwarding gives Decode the registers of the run (R125, R132, R231) -/

section Forwarding

variable {c : Config} {code : Memory} {s : State} {a b : SeqState} {q : Front}

/-- What E's instruction writes, from the values in M: `dstE`, then the load's register. -/
theorem SlotM.regs {M : MReg} (h : SlotM c code (.run a) M (.run b)) :
    ∃ v, b.regs = regWrite (regWrite a.regs M.dstE M.valE) M.dstM v := by
  rcases h.cases_of_run with ⟨⟨-, -, hdE, hdM⟩, hq⟩ | ⟨rfl, hq⟩
  · cases hq
    exact ⟨0, by rw [hdE, hdM, regWrite_rnone, regWrite_rnone]⟩
  · rw [eq_stagedNext_of_frontW (frontM_eq_run_iff.1 hq.symm).2]
    exact ⟨_, stagedNext_regs ..⟩

theorem eq_load_of_dstM {ic : Icode} {rA : RegId} (h : dstM ic rA ≠ rnone) : ic = .mrmovq ∨ ic = .popq := by
  cases ic <;> simp_all [dstM]

/-- An instruction in M with one register as both its destinations is `popq` into the stack pointer. -/
theorem SlotM.popq_of_dstE_eq_dstM {M : MReg} (h : SlotM c code (.run a) M q) (hne : M.dstM ≠ rnone)
    (heq : M.dstE = M.dstM) : M.icode = .popq ∧ M.dstM = c.rsp := by
  rcases h.cases_of_run with ⟨⟨-, -, -, hdM⟩, -⟩ | ⟨rfl, -⟩
  · exact absurd hdM hne
  · generalize textRecord c code a = r at hne heq ⊢
    have hdE : (stagedM c a r).dstE = dstEAfterCond r.icode (stagedM c a r).cnd (dstE c r.icode r.rB) := rfl
    have hicode : (stagedM c a r).icode = r.icode := rfl
    rcases eq_load_of_dstM (ic := r.icode) (rA := r.rA) hne with hload | hload
    · have hnone : (stagedM c a r).dstE = rnone := by
        rw [hdE, hload]
        rfl
      exact absurd (heq.symm.trans hnone) hne
    · refine ⟨hload, ?_⟩
      rw [← heq, hdE, hload]
      rfl

/-- Without a load-use hazard the load in E is for none of Decode's sources. -/
theorem dstM_ne_of_no_loadUse (h : SlotE c code (.run a) s.E q) (hload : loadUseNow c s = false) :
    s.E.dstM = rnone ∨
      s.E.dstM ≠ srcA c s.D.icode s.D.rA ∧ s.E.dstM ≠ srcB c s.D.icode s.D.rB := by
  rcases h.cases_of_run with ⟨⟨-, -, -, hdM⟩, -⟩ | ⟨hE, -⟩
  · exact .inl hdM
  · refine or_iff_not_imp_left.2 fun hne => ?_
    have hicode : s.E.icode = .mrmovq ∨ s.E.icode = .popq := by
      rw [hE] at hne ⊢
      exact eq_load_of_dstM hne
    simpa [hicode] using loadUseNow_iff.not.1 (Bool.eq_false_iff.1 hload)

/-- Forwarding gives what the register holds after the writes of W, of M and of Execute. -/
theorem fwd_eq_operand_of_writes {f : Forwards} {x x' : Regs} {r : RegId}
    (hM : c.fwdMOrder = .dstMFirst ∨ ¬(r = f.mE.id ∧ r = f.mM.id))
    (hx : r ≠ rnone → regRead x' r = regRead (writeSources x [f.e, f.mM, f.mE, f.wM, f.wE]) r) :
    fwd c f x r = operand x' r := by
  by_cases hr : r = rnone
  · subst hr
    rfl
  · rw [operand_of_ne_rnone hr, hx hr, fwd_eq_firstMatch_of_order .dstMFirst hr hM]
    exact firstMatch_eq_regRead_writeSources x hr _

/-- A source of Decode reads what the run has in it: the writes in flight of W, M and E are made, and neither case 2 of
R231 nor a load in E is for it. -/
theorem fwd_eq_operand_of_slots {a0 a1 a2 a3 : SeqState} {r : RegId} (hregs : s.regs = a0.regs)
    (hmem : s.mem = a1.mem) (hW : SlotW c code (.run a0) s.W (.run a1)) (hM : SlotM c code (.run a1) s.M (.run a2))
    (hE : SlotM c code (.run a2) (pendingM s.E (exeOut c s)) (.run a3))
    (hsource : r = srcA c s.D.icode s.D.rA ∨ r = srcB c s.D.icode s.D.rB)
    (hload : s.E.dstM = rnone ∨ s.E.dstM ≠ r) (hpop : ForwardsNoPoppedStackPointer c s) :
    fwd c (forwards (exeOut c s) (memOut c s) s.M s.W) s.regs r = operand a3.regs r := by
  by_cases hr : r = rnone
  · subst hr
    rfl
  refine fwd_eq_operand_of_writes ?order fun _ => ?writes
  case order =>
    refine hpop.imp_right fun hpop => ?_
    rintro ⟨hdE, hdM⟩
    change r = s.M.dstE at hdE
    change r = s.M.dstM at hdM
    obtain ⟨hicode, hrsp⟩ := hM.popq_of_dstE_eq_dstM (hdM ▸ hr) (hdE.symm.trans hdM)
    refine hpop ⟨hicode, hrsp, hsource.imp ?_ ?_⟩ <;>
    · intro hr
      rw [← hr, hdM, hrsp]
  case writes =>
    obtain ⟨v, ha3⟩ := hE.regs
    have ha2 := (slotW_pendingW hM hmem).regs
    have hdM : (pendingM s.E (exeOut c s)).dstM = s.E.dstM := rfl
    rw [ha3, ha2, hW.regs, ← hregs, hdM]
    rcases hload with hnone | hne
    · rw [hnone, regWrite_rnone]
      rfl
    · rw [regRead_regWrite_ne (Ne.symm hne)]
      rfl

theorem decOut_of_slots {a0 a1 a2 a3 : SeqState} (hregs : s.regs = a0.regs)
    (hmem : s.mem = a1.mem) (hW : SlotW c code (.run a0) s.W (.run a1)) (hM : SlotM c code (.run a1) s.M (.run a2))
    (hE : SlotE c code (.run a2) s.E q) (hE' : SlotM c code (.run a2) (pendingM s.E (exeOut c s)) (.run a3))
    (hload : loadUseNow c s = false) (hpop : ForwardsNoPoppedStackPointer c s) :
    decOut c s = decodeStage c a3.regs noForwards s.D := by
  have hdstM := dstM_ne_of_no_loadUse hE hload
  have hA := fwd_eq_operand_of_slots hregs hmem hW hM hE' (.inl rfl) (hdstM.imp_right And.left) hpop
  have hB := fwd_eq_operand_of_slots hregs hmem hW hM hE' (.inr rfl) (hdstM.imp_right And.right) hpop
  simp only [decOut, decodeStage, valA, valB, hA, hB, fwd_noForwards]

end Forwarding

/-! ## What the hazard unit keeps in every run (R191 to R196) -/

/-- The bubbles behind a RETURN and behind a mispredicted jump, whatever the instructions in flight are. -/
structure Orderly (c : Config) (s : State) : Prop where
  /-- Under `RET_DRAIN_D = normal` no RETURN has entered the drain. -/
  noReturn : c.retDrainD = .normal → s.E.icode ≠ .ret ∧ s.M.icode ≠ .ret
  /-- Behind a RETURN in M stands a bubble in D. -/
  behindReturn : s.M.icode = .ret → s.D.icode = .nop
  /-- A load in E has neither a mispredicted jump in M nor a RETURN in W ahead of it: Fetch reads at the prediction. -/
  aheadOfLoad : s.E.icode = .mrmovq ∨ s.E.icode = .popq →
    ¬(s.M.icode = .jxx ∧ s.M.cnd = false) ∧ s.W.icode ≠ .ret

section Orderly

variable {c : Config} {fetch : Memory → Word → FetchOut} {s : State}

theorem cycleState_M_cases :
    (cycleState c fetch s).M = .bubble ∨ (cycleState c fetch s).M = pendingM s.E (exeOut c s) := by
  rw [cycleState_M]
  unfold mCtlNow mCtl
  split
  · exact .inl rfl
  · exact .inr rfl

theorem cycleState_E_cases :
    (cycleState c fetch s).E = .bubble ∨
      (loadUseNow c s = false ∧ mispredictNow c s = false ∧
        (cycleState c fetch s).E = pendingE s.D (decOut c s)) := by
  by_cases h : loadUseNow c s = true ∨ mispredictNow c s = true
  · exact .inl (cycleState_E_of_hazard h)
  · simp only [not_or, Bool.not_eq_true] at h
    exact .inr ⟨h.1, h.2, cycleState_E_of_no_hazard h.1 h.2⟩

/-- A drain bubbles D where case 1 of R231 does not stand. -/
theorem cycleState_D_of_drain (h : Orderly c s) (hdrains : DrainsNoReturn c s) (hload : loadUseNow c s = false)
    (hret : retDrainNow s = true) : (cycleState c fetch s).D = .bubble := by
  cases hcfg : c.retDrainD with
  | bubble => exact cycleState_D_of_bubble_drain hcfg hload hret
  | normal =>
    obtain ⟨hE, hM⟩ := h.noReturn hcfg
    have hD : s.D.icode ≠ .ret := hdrains.resolve_left (by simp [hcfg])
    exact absurd (retDrainNow_iff.1 hret) (by simp [hD, hE, hM])

/-- Only a mispredicted jump enters M with a false condition. -/
theorem cycleState_M_of_no_mispredict (hmis : mispredictNow c s = false) :
    ¬((cycleState c fetch s).M.icode = .jxx ∧ (cycleState c fetch s).M.cnd = false) := by
  rcases cycleState_M_cases (c := c) (fetch := fetch) (s := s) with hM | hM <;> rw [hM]
  · nofun
  · exact fun hjump => Bool.eq_false_iff.1 hmis (mispredictNow_iff_cnd.2 hjump)

theorem Orderly.cycleState (h : Orderly c s) (hdrains : DrainsNoReturn c s) : Orderly c (cycleState c fetch s) := by
  have hM : (Machine.cycleState c fetch s).M.icode = .ret → s.E.icode = .ret := by
    rcases cycleState_M_cases (c := c) (fetch := fetch) (s := s) with hM | hM <;> rw [hM]
    · nofun
    · exact id
  refine ⟨fun hcfg => ⟨?noReturnE, fun hret => (h.noReturn hcfg).1 (hM hret)⟩, fun hret => ?behindReturn,
    fun hload => ?aheadOfLoad⟩
  case noReturnE =>
    rcases cycleState_E_cases (c := c) (fetch := fetch) (s := s) with hE | ⟨-, -, hE⟩ <;> rw [hE]
    · nofun
    · exact hdrains.resolve_left (by simp [hcfg])
  case behindReturn =>
    have hE := hM hret
    have hload : loadUseNow c s = false := loadUseNow_of_no_load (by simp [hE]) (by simp [hE])
    rw [cycleState_D_of_drain h hdrains hload (retDrainNow_iff.2 (.inr (.inl hE)))]
    rfl
  case aheadOfLoad =>
    rcases cycleState_E_cases (c := c) (fetch := fetch) (s := s) with hE | ⟨-, hmis, hE⟩
    · rw [hE] at hload
      exact hload.elim nofun nofun
    · rw [hE] at hload
      refine ⟨cycleState_M_of_no_mispredict hmis, fun hW => ?_⟩
      have hD : (pendingE s.D (decOut c s)).icode = .nop := h.behindReturn hW
      rw [hD] at hload
      exact hload.elim nofun nofun

end Orderly

/-! ## The simulation (R230, R231) -/

/-- The pipeline in state `s` carries the sequential run from `a` on, with these boundaries behind W, M, E and D: the
registers are those before the instruction in W, the memory before the one in M, the flags before the one in E, and
Fetch reads where the run goes on. -/
structure Carries (c : Config) (code : Memory) (s : State) (a : SeqState) (p1 p2 p3 p4 : Front) : Prop where
  regs       : s.regs = a.regs
  mem        : s.mem = (p1.stateOr a).mem
  flags      : s.flags = (p2.stateOr (p1.stateOr a)).flags
  slotW      : SlotW c code (.run a) s.W p1
  slotM      : SlotM c code p1 s.M p2
  slotE      : SlotE c code p2 s.E p3
  slotD      : SlotD c code p3 s.D p4
  behindStop : p1 = .off → QuietM s.M
  fetch      : ∀ b, p4 = .run b → fetchPC s = b.pc

/-- The pipeline in state `s` carries the sequential run from `a` on. -/
def Simulates (c : Config) (code : Memory) (s : State) (a : SeqState) : Prop :=
  ∃ p1 p2 p3 p4, Carries c code s a p1 p2 p3 p4

/-- The next state over a fixed program text. -/
def nextText (c : Config) (code : Memory) (s : State) : State := cycleState c (fetchText c code) s

section Step

variable {c : Config} {code : Memory} {s : State} {a0 a1 : SeqState} {p1 p2 p3 p4 : Front}

/-- What holds after a cycle whatever stands behind M: the instruction in W has committed, and the one in M is in W. -/
theorem Carries.nextText_of_slots (h : Carries c code s a0 (.run a1) p2 p3 p4) {q2 q3 q4 : Front}
    (hflags : (exeOut c s).flags = (q2.stateOr (p2.stateOr a1)).flags)
    (hM : SlotM c code p2.resume (nextText c code s).M q2) (hE : SlotE c code q2 (nextText c code s).E q3)
    (hD : SlotD c code q3 (nextText c code s).D q4) (hstop : p2 = .off → QuietM (nextText c code s).M)
    (hfetch : ∀ b, q4 = .run b → fetchPC (nextText c code s) = b.pc) :
    Carries c code (nextText c code s) a1 p2.resume q2 q3 q4 := by
  have hrun : ¬wStop s.W = true := fun hw => nomatch h.slotW.wStop.1 hw
  refine ⟨?regs, ?mem, ?flags, slotW_pendingW h.slotM h.mem, hM, hE, hD,
    fun hoff => hstop (Front.resume_eq_off_iff.1 hoff), hfetch⟩
  case regs => rw [nextText, cycleState_regs, if_neg hrun, h.slotW.regs, h.regs]
  case mem => rw [nextText, cycleState_mem, memOut_mem_of_slotM h.slotM h.mem, Front.stateOr_resume]
  case flags => rw [nextText, cycleState_flags, hflags, Front.stateOr_resume]

/-- Fetch reads at the prediction, with neither a mispredicted jump entering M nor a RETURN entering W. -/
theorem fetchPC_nextText (hmis : mispredictNow c s = false) (hM : s.M.icode ≠ .ret) :
    fetchPC (nextText c code s) = (nextText c code s).F.predPC :=
  selectPC_of_predicted (cycleState_M_of_no_mispredict hmis) hM

/-- Ahead of an instruction that does not stop the machine no status is abnormal. -/
theorem Carries.stat (h : Carries c code s a0 (.run a1) p2 p3 p4) (hp2 : p2 ≠ .off) :
    (memOut c s).stat = .aok ∧ s.W.stat = .aok :=
  ⟨(memOut_stat_of_slotM h.slotM h.mem).2 hp2, h.slotW.stat.2 nofun⟩

theorem Carries.nextText_M (h : Carries c code s a0 (.run a1) p2 p3 p4) (hp2 : p2 ≠ .off) :
    (nextText c code s).M = pendingM s.E (exeOut c s) := by
  obtain ⟨hm, hw⟩ := h.stat hp2
  rw [nextText, cycleState_M, mCtlNow_of_aok hm hw, latch_normal]

/-- The instruction in M stops the machine: what is behind it takes no effect. -/
theorem Carries.step_of_fault (h : Carries c code s a0 (.run a1) .off p3 p4) :
    ∃ q2 q3 q4, Carries c code (nextText c code s) a1 .off q2 q3 q4 := by
  have habnormal : (memOut c s).stat ≠ .aok := fun haok => (memOut_stat_of_slotM h.slotM h.mem).1 haok rfl
  have hflags := (exeOut_flags_of_abnormal (.inl habnormal)).trans h.flags
  exact ⟨.off, .off, .off, h.nextText_of_slots hflags .off .off .off
    (fun _ => cycleState_M_of_abnormal habnormal ▸ quietM_bubble) nofun⟩

/-- A RETURN goes from M to W: behind it stand bubbles, and Fetch reads at its loaded address. -/
theorem Carries.step_of_return {a2 : SeqState} (h : Carries c code s a0 (.run a1) (.drained a2) p3 p4)
    (hord : Orderly c s) (hdrains : DrainsNoReturn c s) :
    ∃ q2 q3 q4, Carries c code (nextText c code s) a1 (.run a2) q2 q3 q4 := by
  obtain ⟨hquietE, rfl⟩ := h.slotE.quiet_of_drained
  obtain ⟨hquietD, rfl⟩ := h.slotD.quiet_of_drained
  have hload : loadUseNow c s = false := loadUseNow_of_no_load (by simp [hquietE.2.1]) (by simp [hquietE.2.1])
  have hM := h.nextText_M nofun
  have hE : (nextText c code s).E = pendingE s.D (decOut c s) := by
    rw [nextText, cycleState_E, eCtlNow_of_quietE hquietE, latch_normal]
  rcases h.slotM.cases_of_run with ⟨-, hq⟩ | ⟨himage, hq⟩
  · cases hq
  obtain ⟨hret, hfront⟩ := frontM_eq_drained hq.symm
  have hMret : s.M.icode = .ret := himage ▸ hret
  have hD : (nextText c code s).D = .bubble :=
    cycleState_D_of_drain hord hdrains hload (retDrainNow_iff.2 (.inr (.inr hMret)))
  have hquietM : QuietM (nextText c code s).M := hM ▸ quietM_pendingM hquietE
  refine ⟨.run a2, .run a2, .run a2, h.nextText_of_slots ((exeOut_flags_of_quietE hquietE).trans h.flags)
    (.empty hquietM rfl) (.empty (hE ▸ quietE_pendingE hquietD.1 hquietD.2) rfl)
    (.empty (hD ▸ quietD_bubble) rfl) nofun fun b hb => ?_⟩
  cases hb
  rw [fetchPC, selectPC_of_return (by simp [hquietM.2.1]) hMret, eq_stagedNext_of_frontW hfront]
  have hpc : (stagedNext c a1 (textRecord c code a1)).pc = (stagedMem c a1 (textRecord c code a1)).valM := by
    refine selectPC_of_return ?_ hret
    rintro ⟨hjump, -⟩
    exact nomatch hjump.symm.trans hret
  rw [hpc]
  change (memOut c s).valM = _
  rw [memOut, himage, h.mem]
  rfl

/-- A mispredicted jump goes from E to M: behind it stand bubbles, and Fetch reads at its fall-through address. -/
theorem Carries.step_of_mispredict {a2 : SeqState} (h : Carries c code s a0 (.run a1) (.run a2) p3 p4)
    (hord : Orderly c s) (hdrains : DrainsNoReturn c s) (hmis : mispredictNow c s = true) :
    ∃ q2 q3 q4, Carries c code (nextText c code s) a1 (.run a2) q2 q3 q4 := by
  obtain ⟨hm, hw⟩ := h.stat nofun
  obtain ⟨q, hslotM, hflags, -, hpc⟩ := slotM_pendingM h.slotE h.flags hm hw
  have hM := h.nextText_M nofun
  have hE : (nextText c code s).E = .bubble := cycleState_E_of_hazard (.inr hmis)
  have hjump : s.E.icode = .jxx := (mispredictNow_iff.1 hmis).1
  have hload : loadUseNow c s = false := loadUseNow_of_no_load (by simp [hjump]) (by simp [hjump])
  have hD : (nextText c code s).D = .bubble := by
    cases hret : retDrainNow s with
    | true => exact cycleState_D_of_drain hord hdrains hload hret
    | false => exact cycleState_D_of_mispredict hload hret hmis
  refine ⟨q, q, q, h.nextText_of_slots hflags (hM ▸ hslotM) (hE ▸ .empty quietE_bubble rfl)
    (hD ▸ .empty quietD_bubble rfl) nofun fun b hb => ?_⟩
  rw [hpc hmis b hb, fetchPC, hM]
  exact selectPC_of_mispredicted (mispredictNow_iff_cnd.1 hmis)

/-- A load-use hazard: D and F hold, and E takes a bubble. -/
theorem Carries.step_of_loadUse {a2 : SeqState} (h : Carries c code s a0 (.run a1) (.run a2) p3 p4)
    (hord : Orderly c s) (hmis : mispredictNow c s = false) (hload : loadUseNow c s = true) :
    ∃ q2 q3 q4, Carries c code (nextText c code s) a1 (.run a2) q2 q3 q4 := by
  obtain ⟨hm, hw⟩ := h.stat nofun
  obtain ⟨q, hslotM, hflags, hq, -⟩ := slotM_pendingM h.slotE h.flags hm hw
  obtain rfl := hq hmis
  have hM := h.nextText_M nofun
  have hE : (nextText c code s).E = .bubble := cycleState_E_of_hazard (.inl hload)
  have hD : (nextText c code s).D = s.D := cycleState_D_of_loadUse hload
  have hF : (nextText c code s).F = s.F := cycleState_F_of_hazard (.inl hload)
  refine ⟨q, q, p4, h.nextText_of_slots hflags (hM ▸ hslotM) (hE ▸ .empty quietE_bubble rfl) (hD ▸ h.slotD)
    nofun fun b hb => ?_⟩
  have hMret : s.M.icode ≠ .ret := fun hret => h.slotM.ne_run_of_ret hret rfl
  obtain ⟨hjump, hWret⟩ := hord.aheadOfLoad (loadUseNow_iff.1 hload).1
  rw [fetchPC_nextText hmis hMret, hF, ← h.fetch b hb]
  exact (selectPC_of_predicted hjump hWret).symm

/-- A record that is fetched where the run goes on predicts the next address, unless a jump or a RETURN transfers. -/
theorem pc_of_frontE {a b : SeqState} (h : frontE c code a = .run b) : b.pc = (textRecord c code a).predPC := by
  obtain ⟨hjump, hM⟩ := frontE_eq_run_iff.1 h
  obtain ⟨hret, hW⟩ := frontM_eq_run_iff.1 hM
  rw [eq_stagedNext_of_frontW hW]
  exact selectPC_of_predicted hjump hret

/-- No hazard of E: the instruction in D goes to E, and D takes a bubble behind a RETURN or what is fetched. -/
theorem Carries.step_of_no_hazard {a2 : SeqState} (h : Carries c code s a0 (.run a1) (.run a2) p3 p4)
    (hord : Orderly c s) (hdrains : DrainsNoReturn c s) (hpop : ForwardsNoPoppedStackPointer c s)
    (hmis : mispredictNow c s = false) (hload : loadUseNow c s = false) :
    ∃ q2 q3 q4, Carries c code (nextText c code s) a1 (.run a2) q2 q3 q4 := by
  obtain ⟨hm, hw⟩ := h.stat nofun
  obtain ⟨q, hslotM, hflags, hq, -⟩ := slotM_pendingM h.slotE h.flags hm hw
  obtain rfl := hq hmis
  have hM := h.nextText_M nofun
  have hE : (nextText c code s).E = pendingE s.D (decOut c s) := cycleState_E_of_no_hazard hload hmis
  have hslotE : SlotE c code q (nextText c code s).E p4 := by
    refine hE ▸ slotE_pendingE h.slotD fun b hb => ?_
    subst hb
    exact decOut_of_slots h.regs h.mem h.slotW h.slotM h.slotE hslotM hload hpop
  have hMret : s.M.icode ≠ .ret := fun hret => h.slotM.ne_run_of_ret hret rfl
  cases hret : retDrainNow s with
  | true =>
    have hD : (nextText c code s).D = .bubble := cycleState_D_of_drain hord hdrains hload hret
    refine ⟨q, p4, p4, h.nextText_of_slots hflags (hM ▸ hslotM) hslotE (hD ▸ .empty quietD_bubble rfl) nofun
      fun b hb => ?_⟩
    rcases retDrainNow_iff.1 hret with hDret | hEret | hMret'
    · exact absurd hb (h.slotD.ne_run_of_ret hDret)
    · exact absurd hb (h.slotD.eq_of_ne_run (fun _ => h.slotE.ne_run_of_ret hEret) ▸ h.slotE.ne_run_of_ret hEret)
    · exact absurd hMret' hMret
  | false =>
    have hD : (nextText c code s).D = pendingD (fetchStage c code (fetchPC s)) :=
      cycleState_D_of_no_hazard hload hret hmis
    have hF : (nextText c code s).F = ⟨(fetchStage c code (fetchPC s)).predPC⟩ :=
      cycleState_F_of_no_hazard hload hret
    cases p4 with
    | run a4 =>
      rw [h.fetch a4 rfl] at hD hF
      refine ⟨q, .run a4, frontE c code a4, h.nextText_of_slots hflags (hM ▸ hslotM) hslotE
        (.holds a4 rfl hD rfl) nofun fun b hb => ?_⟩
      rw [fetchPC_nextText hmis hMret, hF, pc_of_frontE hb]
      rfl
    | drained a4 =>
      have hq : ∀ b, q ≠ .drained b := fun b hb =>
        Bool.eq_false_iff.1 hret (retDrainNow_iff.2 (.inr (.inl ((hb ▸ h.slotE).icode_of_drained nofun))))
      exact absurd (retDrainNow_iff.2 (.inl (h.slotD.icode_of_drained hq))) (Bool.eq_false_iff.1 hret)
    | off =>
      exact ⟨q, .off, .off, h.nextText_of_slots hflags (hM ▸ hslotM) hslotE .off nofun nofun⟩

/-- A cycle in which W does not stop the machine carries the run on from the state behind W. -/
theorem Carries.step (h : Carries c code s a0 (.run a1) p2 p3 p4) (hord : Orderly c s)
    (hdrains : DrainsNoReturn c s) (hpop : ForwardsNoPoppedStackPointer c s) :
    Simulates c code (nextText c code s) a1 := by
  cases p2 with
  | off => exact ⟨_, h.step_of_fault⟩
  | drained a2 => exact ⟨_, h.step_of_return hord hdrains⟩
  | run a2 =>
    cases hmis : mispredictNow c s with
    | true => exact ⟨_, h.step_of_mispredict hord hdrains hmis⟩
    | false =>
      cases hload : loadUseNow c s with
      | true => exact ⟨_, h.step_of_loadUse hord hmis hload⟩
      | false => exact ⟨_, h.step_of_no_hazard hord hdrains hpop hmis hload⟩

/-- The cycle in which W stops the machine leaves the registers, flags and memory of the run. -/
theorem Carries.stop (h : Carries c code s a0 .off p2 p3 p4) :
    (nextText c code s).stopped = true ∧ (nextText c code s).exitStatus = some s.W.stat ∧
      (nextText c code s).regs = a0.regs ∧ (nextText c code s).flags = a0.flags ∧
      (nextText c code s).mem = a0.mem := by
  have hstop : wStop s.W = true := h.slotW.wStop.2 rfl
  have hstat : s.W.stat ≠ .aok := fun haok => h.slotW.stat.1 haok rfl
  have hp2 : p2 = .off := h.slotM.eq_of_ne_run nofun
  refine ⟨?stopped, ?status, ?regs, ?flags, ?mem⟩
  case stopped => rw [nextText, cycleState_stopped, hstop, Bool.true_or]
  case status => rw [nextText, cycleState_exitStatus, if_pos hstop]
  case regs => rw [nextText, cycleState_regs, if_pos hstop, h.regs]
  case flags =>
    rw [nextText, cycleState_flags, exeOut_flags_of_abnormal (.inr hstat), h.flags, hp2]
    rfl
  case mem =>
    rw [nextText, cycleState_mem, memOut_of_quietM (h.behindStop rfl)]
    exact h.mem

end Step

/-! ## Whole runs -/

section Runs

variable {c : Config} {code : Memory}

theorem runText_succ_of_running {n : Nat} {s : State} (h : s.stopped = false) :
    runText c code (n + 1) s = runText c code n (nextText c code s) := by
  rw [runText, clock_running h]
  rfl

/-- A stopped machine runs no further cycle (R25). -/
theorem eq_of_runText_stopped {n : Nat} {s t : State} (h : s.stopped = true) (hrun : runText c code n s = .next t) :
    t = s := by
  cases n with
  | zero => cases hrun; rfl
  | succ n =>
    rw [runText, clock_stopped h] at hrun
    cases hrun

/-- The sequential view reaches the raising instruction with the state that `t` holds. -/
def EndsAs (c : Config) (code : Memory) (a : SeqState) (t : State) : Prop :=
  ∃ (k : Nat) (b : SeqState) (status : Stat),
    seqRunText c code k a = some b ∧ seqStepText c code b = .raise status ∧
    t.exitStatus = some status ∧ t.regs = b.regs ∧ t.flags = b.flags ∧ t.mem = b.mem

/-- An instruction that completes goes before the run. -/
theorem EndsAs.cons {a b : SeqState} {t : State} (hstep : seqStepText c code a = .next b) (h : EndsAs c code b t) :
    EndsAs c code a t := by
  obtain ⟨k, e, status, hrun, hend⟩ := h
  exact ⟨k + 1, e, status, by rw [seqRunText, hstep]; exact hrun, hend⟩

/-- By induction on the cycles: each carries the run on, and the one in which W stops ends it. -/
theorem endsAs_of_runText {n : Nat} {s t : State} {a : SeqState} (h : Simulates c code s a) (hord : Orderly c s)
    (hstopped : s.stopped = false)
    (hcases : ∀ (k : Nat) (u : State), k < n → runText c code k s = .next u →
      DrainsNoReturn c u ∧ ForwardsNoPoppedStackPointer c u)
    (hrun : runText c code n s = .next t) (ht : t.stopped = true) : EndsAs c code a t := by
  induction n generalizing s a with
  | zero =>
    cases hrun
    exact absurd ht (by simp [hstopped])
  | succ n ih =>
    rw [runText_succ_of_running hstopped] at hrun
    obtain ⟨hdrains, hpop⟩ := hcases 0 s (Nat.succ_pos n) rfl
    obtain ⟨p1, p2, p3, p4, hcarries⟩ := h
    cases p1 with
    | off =>
      obtain ⟨hstop, hexit, hregs, hflags, hmem⟩ := hcarries.stop
      obtain rfl := eq_of_runText_stopped hstop hrun
      exact ⟨0, a, s.W.stat, rfl, hcarries.slotW.raises, hexit, hregs, hflags, hmem⟩
    | drained b => exact absurd rfl hcarries.slotW.ne_drained
    | run b =>
      have hgo : (nextText c code s).stopped = false := by
        have hw : wStop s.W = false := Bool.eq_false_iff.2 fun hw => nomatch hcarries.slotW.wStop.1 hw
        rw [nextText, cycleState_stopped, hw, hstopped, Bool.false_or]
      have hends : EndsAs c code b t := by
        refine ih (hcarries.step hord hdrains hpop) (hord.cycleState hdrains) hgo (fun k u hk hu => ?_) hrun
        exact hcases (k + 1) u (Nat.succ_lt_succ hk) ((runText_succ_of_running hstopped).trans hu)
      rcases hcarries.slotW.seqStep with rfl | hstep
      · exact hends
      · exact hends.cons hstep

end Runs

/-- Settles O55: the pipeline, started empty, carries the sequential run from its start on, and every cycle keeps
that. -/
theorem pipelineMeetsSequentialExecution : Obligations.PipelineMeetsSequentialExecution := by
  unfold Obligations.PipelineMeetsSequentialExecution
  intro c code m x f n t start hcases hrun ht
  have hstart : Simulates c code start ⟨x, f, m, 0⟩ :=
    ⟨.run _, .run _, .run _, .run _, rfl, rfl, rfl, .empty ⟨rfl, rfl, rfl, rfl⟩ rfl, .empty quietM_bubble rfl,
      .empty quietE_bubble rfl, .empty quietD_bubble rfl, nofun, fun b hb => by cases hb; rfl⟩
  have hord : Orderly c start := ⟨fun _ => ⟨nofun, nofun⟩, nofun, fun h => h.elim nofun nofun⟩
  exact endsAs_of_runText hstart hord rfl hcases hrun ht

end Sys2Proof.Machine
end

section
/-! PROOFS. Nothing younger than a faulting or halting instruction takes effect (spec/60_exceptions.md R264 to
R268). -/

namespace Sys2Proof.Machine

/-- The store of a legal M belongs to an instruction that commits: a class that stores comes from Fetch with status OK,
so that an abnormal status in the Memory stage is that of a refused access (R103, R174, R175; D15). -/
theorem memOut_mem_of_abnormal {c : Config} {s : State} (hM : LegalM c s.M) (hstat : (memOut c s).stat ≠ .aok) :
    (memOut c s).mem = s.mem := by
  obtain ⟨hfetched, -⟩ := hM
  refine memoryStage_mem_unchanged _ _ fun ⟨hstore, ha⟩ => hstat ?_
  have hnoError : memError c s.M = false := by rw [memError, ha, Bool.not_true, Bool.and_false]
  have hcarried : (memOut c s).stat = s.M.stat := if_neg (Bool.eq_false_iff.1 hnoError)
  rw [hcarried]
  rcases writesMem_eq_true_iff.1 hstore with h | h | h <;>
  · rw [h] at hfetched
    exact stat_eq_aok_of_fetchStatLegal hfetched rfl nofun nofun

/-- Settles O34: in the cycle that brings the abnormal status to W, the instruction ahead commits, and neither the
refused access nor the OPQ in Execute writes; the next cycle is the stop cycle (O33), and a stopped machine has no
other (O9). -/
theorem nothingBehindAFaultTakesEffect : Obligations.NothingBehindAFaultTakesEffect := by
  unfold Obligations.NothingBehindAFaultTakesEffect
  intro s hlegal hrun hW hstat
  obtain ⟨-, -, -, hlegalM, hlegalW, -⟩ := legal_iff.1 hlegal
  have hhalt : s.W.icode ≠ .halt := fun h => stat_ne_aok_of_wStop hlegalW (wStop_iff.2 (.inr h)) hW
  obtain ⟨t, ht⟩ : ∃ t, t = cycleState Config.machine (fetchStage Config.machine) s := ⟨_, rfl⟩
  have hstep : step s = .next t := step_next_iff.2 ⟨hrun, ht⟩
  obtain ⟨hregs, -, hrun', -⟩ := (writebackCommitsOrStops s t hstep).2 hW hhalt
  have hflags : t.flags = s.flags := by rw [ht, cycleState_flags, exeOut_flags_of_abnormal (.inl hstat)]
  have hmem : t.mem = s.mem := by rw [ht, cycleState_mem, memOut_mem_of_abnormal hlegalM hstat]
  obtain ⟨-, hkeeps, -⟩ := everyStepKeepsLegal
  have hstatW : t.W.stat = (memOut Config.machine s).stat := by rw [ht, cycleState_W]; rfl
  have hstep' := step_running hrun'
  obtain ⟨hstop, hexit, hregs', hflags', hmem'⟩ := stopCycleChangesNothingArchitectural t _
    (hkeeps s t hlegal hstep) hstep' (hstatW ▸ hstat)
  exact ⟨t, _, hstep, hstep', hrun', hregs, hflags, hmem, hstop, hexit.trans (congrArg some hstatW), hregs',
    hflags'.trans hflags, hmem'.trans hmem, ((machineRunsExactlyUntilStopped _).2 hstop).1⟩

end Sys2Proof.Machine
end

section
/-! PROOFS. The instructions of spec/48_instructions_control_stack.md one by one: each is the passage of
`completes_of_seqExec` or `raises_of_seqExec`, with the net effect written out (R240 to R250). -/

namespace Sys2Proof.Machine

/-- Settles O47: each of the seven jumps has the net effect and the lost cycles of its relation. -/
theorem jumpsComplete : Obligations.JumpsComplete := by
  unfold Obligations.JumpsComplete
  intro s dest hs
  refine ⟨completes_of_seqExec hs rfl, completes_of_seqExec hs rfl, completes_of_seqExec hs rfl,
    completes_of_seqExec hs rfl, completes_of_seqExec hs rfl, completes_of_seqExec hs rfl, ?jg⟩
  case jg =>
    rw [Bool.not_or]
    exact completes_of_seqExec hs rfl

/-- The stack pointer is no sentinel, so that the sequential view reads it from the register file (R13, R125). -/
theorem seqReg_rsp (c : Config) (a : SeqState) : seqReg a c.rsp = regRead a.regs c.rsp :=
  operand_of_ne_rnone (rsp_ne_rnone c)

/-- An instruction whose net effect depends on the access at `addr` completes where the access is admitted and raises
SADR where it is refused (R45, R247 to R250). -/
theorem completes_or_raises_of_seqExec {i : Instr} {s : State} (hs : Ready s) {addr : Word} {a : SeqState}
    (h : seqExec Config.machine i (seqOf s) = if admitted Config.machine addr then .next a else .raise .adr) :
    (admitted Config.machine addr = true → Completes i s a (lostCycles i s.flags)) ∧
      (admitted Config.machine addr = false → Raises i s .adr) :=
  ⟨fun ha => completes_of_seqExec hs (h.trans (if_pos ha)),
    fun ha => raises_of_seqExec hs (h.trans (if_neg (Bool.eq_false_iff.1 ha)))⟩

/-- Settles O48: the net effect of `call` over the stack pointer that the register file holds. -/
theorem callCompletesOrRaises : Obligations.CallCompletesOrRaises := by
  unfold Obligations.CallCompletesOrRaises
  intro s fn dest hs
  refine completes_or_raises_of_seqExec hs ?_
  rw [seqExec, seqCall, seqReg_rsp]
  rfl

/-- Settles O49: the net effect of `ret` over the stack pointer that the register file holds. -/
theorem retCompletesOrRaises : Obligations.RetCompletesOrRaises := by
  unfold Obligations.RetCompletesOrRaises
  intro s fn hs
  refine completes_or_raises_of_seqExec hs ?_
  rw [seqExec, seqRet, seqReg_rsp]
  rfl

/-- Settles O50: the net effect of `pushq` over the stack pointer that the register file holds. -/
theorem pushqCompletesOrRaises : Obligations.PushqCompletesOrRaises := by
  unfold Obligations.PushqCompletesOrRaises
  intro s fn rA rB hs
  refine completes_or_raises_of_seqExec hs ?_
  rw [seqExec, seqPushq, seqReg_rsp]
  rfl

/-- Settles O51: the net effect of `popq` over the stack pointer that the register file holds. -/
theorem popqCompletesOrRaises : Obligations.PopqCompletesOrRaises := by
  unfold Obligations.PopqCompletesOrRaises
  intro s fn rA rB hs
  refine completes_or_raises_of_seqExec hs ?_
  rw [seqExec, seqPopq, seqReg_rsp]
  rfl

end Sys2Proof.Machine
end

section
/-! PROOFS. A word placed under the fetch (spec/70_reset_and_hazards.md R282, log 27): the three adjustments that
`placeForFetch` makes before it loads the bytes, and that the next cycle then fetches these bytes. -/

namespace Sys2Proof.Machine

section Placing

variable {c : Config} {n : Nat}

/-! ## The first adjustment: the machine runs -/

/-- `s` running. -/
def restart (s : State) : State := if s.stopped then { s with stopped := false, exitStatus := none } else s

theorem restart_stopped_mem (s : State) : (restart s).stopped = false ∧ (restart s).mem = s.mem := by
  unfold restart
  split
  · exact ⟨rfl, rfl⟩
  · next hrun => exact ⟨Bool.eq_false_iff.2 hrun, rfl⟩

/-! ## The second adjustment: the bytes lie in bounds (R100, R101) -/

/-- The address moved to is the one that R100 then selects. -/
theorem fetchPC_redirectFetch (s : State) (a : Word) : fetchPC (redirectFetch s a) = a := by
  unfold redirectFetch
  split
  · next hjump => exact selectPC_of_mispredicted hjump
  · next hjump =>
    split
    · next hret => exact selectPC_of_return hjump hret
    · next hret => exact selectPC_of_predicted hjump hret

theorem redirectFetch_stopped_mem (s : State) (a : Word) :
    (redirectFetch s a).stopped = s.stopped ∧ (redirectFetch s a).mem = s.mem := by
  unfold redirectFetch
  split
  · exact ⟨rfl, rfl⟩
  · split <;> exact ⟨rfl, rfl⟩

/-- `s` with a fetch address from which `n` bytes lie in bounds. -/
def fitFetch (c : Config) (s : State) (n : Nat) : State :=
  if (fetchPC s).toNat + n ≤ c.memSize then s else redirectFetch s 0

theorem fitFetch_stopped_mem (c : Config) (s : State) (n : Nat) :
    (fitFetch c s n).stopped = s.stopped ∧ (fitFetch c s n).mem = s.mem := by
  unfold fitFetch
  split
  · exact ⟨rfl, rfl⟩
  · exact redirectFetch_stopped_mem s 0

theorem fetchPC_fitFetch_le (s : State) (hn : n ≤ c.memSize) : (fetchPC (fitFetch c s n)).toNat + n ≤ c.memSize := by
  unfold fitFetch
  split
  · next hfits => exact hfits
  · simpa [fetchPC_redirectFetch] using hn

/-! ## The third adjustment: no store of this cycle lands on the bytes (R53; D16) -/

/-- `s` without a store of this cycle on the `n` bytes at its fetch address. -/
def dropOverlap (c : Config) (s : State) (n : Nat) : State :=
  if storeOverlaps c s.M (fetchPC s).toNat n then { s with M := .bubble } else s

theorem dropOverlap_stopped_mem (c : Config) (s : State) (n : Nat) :
    (dropOverlap c s n).stopped = s.stopped ∧ (dropOverlap c s n).mem = s.mem := by
  unfold dropOverlap
  split <;> exact ⟨rfl, rfl⟩

/-- What is left out is a store and so no jump: R100 selects as before. -/
theorem fetchPC_dropOverlap (c : Config) (s : State) (n : Nat) : fetchPC (dropOverlap c s n) = fetchPC s := by
  unfold dropOverlap
  split
  · next hoverlap =>
    have hstore : writesMem s.M.icode = true := by
      simp only [storeOverlaps, Bool.and_eq_true] at hoverlap
      exact hoverlap.1.1.1
    have hjump : s.M.icode ≠ .jxx := fun h => by rw [h] at hstore; cases hstore
    simp [fetchPC, selectPC, hjump, MReg.bubble]
  · rfl

theorem storeOverlaps_dropOverlap (c : Config) (s : State) (n : Nat) :
    storeOverlaps c (dropOverlap c s n).M (fetchPC (dropOverlap c s n)).toNat n = false := by
  rw [fetchPC_dropOverlap]
  unfold dropOverlap
  split
  · rfl
  · next hoverlap => exact Bool.eq_false_iff.2 hoverlap

/-- A store that does not overlap the `n` bytes from `a` leaves each of them as it is (R44, R174). -/
theorem get_memoryStage_of_no_overlap {M : MReg} {a k : Nat} (h : storeOverlaps c M a n = false) (hk : k < n)
    (m : Memory) : (memoryStage c m M).mem.get (a + k) = m.get (a + k) := by
  by_cases hstore : writesMem M.icode = true ∧ admitted c (memAddr M) = true
  · obtain ⟨hwrites, ha⟩ := hstore
    have hapart : (memAddr M).toNat < a + n → (memAddr M).toNat + 8 ≤ a := by
      simpa [storeOverlaps, hwrites, ha] using h
    rw [memoryStage_mem_of_store c m hwrites, get_memWrite8_outside (by omega)]
  · rw [memoryStage_mem_unchanged c m hstore]

/-! ## The load -/

/-- The state that `placeForFetch` loads the bytes into. -/
def placeBase (c : Config) (s : State) (n : Nat) : State := dropOverlap c (fitFetch c (restart s) n) n

theorem placeForFetch_eq_load (c : Config) (s : State) (bytes : List Byte) :
    placeForFetch c s bytes =
      (placeBase c s bytes.length).load c (fetchPC (placeBase c s bytes.length)).toNat bytes := rfl

theorem placeBase_stopped_mem (c : Config) (s : State) (n : Nat) :
    (placeBase c s n).stopped = false ∧ (placeBase c s n).mem = s.mem := by
  obtain ⟨hrun, hmem⟩ := restart_stopped_mem s
  obtain ⟨hrunFit, hmemFit⟩ := fitFetch_stopped_mem c (restart s) n
  obtain ⟨hrunDrop, hmemDrop⟩ := dropOverlap_stopped_mem c (fitFetch c (restart s) n) n
  exact ⟨hrunDrop.trans (hrunFit.trans hrun), hmemDrop.trans (hmemFit.trans hmem)⟩

theorem fetchPC_placeBase_le (s : State) (hn : n ≤ c.memSize) :
    (fetchPC (placeBase c s n)).toNat + n ≤ c.memSize := by
  rw [placeBase, fetchPC_dropOverlap]
  exact fetchPC_fitFetch_le (restart s) hn

theorem storeOverlaps_placeBase (c : Config) (s : State) (n : Nat) :
    storeOverlaps c (placeBase c s n).M (fetchPC (placeBase c s n)).toNat n = false := storeOverlaps_dropOverlap ..

/-- A load changes the memory alone, so that the fetch address stays. -/
theorem fetchPC_load (c : Config) (s : State) (a : Nat) (bytes : List Byte) :
    fetchPC (s.load c a bytes) = fetchPC s := rfl

theorem placeForFetch_stopped (c : Config) (s : State) (bytes : List Byte) :
    (placeForFetch c s bytes).stopped = false := by
  rw [placeForFetch_eq_load, load_stopped]
  exact (placeBase_stopped_mem c s bytes.length).1

/-- Byte `k` of the bytes placed is what the next cycle reads at offset `k` from its fetch address. -/
theorem memByte_placeForFetch {s : State} {bytes : List Byte} {k : Nat} (hwf : s.mem.wf c.memSize)
    (hsize : c.memSize ≤ 2 ^ 64) (hlen : bytes.length ≤ c.memSize) (hk : k < bytes.length) :
    memByte c (memOut c (placeForFetch c s bytes)).mem (fetchPC (placeForFetch c s bytes) + BitVec.ofNat 64 k) =
      bytes[k] := by
  have hmem := (placeBase_stopped_mem c s bytes.length).2
  have hfits := fetchPC_placeBase_le s hlen
  have hapart := storeOverlaps_placeBase c s bytes.length
  rw [placeForFetch_eq_load, fetchPC_load, memOut, load_M, load_mem]
  generalize placeBase c s bytes.length = p at hmem hfits hapart
  have haddr : (fetchPC p + BitVec.ofNat 64 k).toNat = (fetchPC p).toNat + k := toNat_add_ofNat (by omega)
  have hin : inBounds c (fetchPC p + BitVec.ofNat 64 k) = true := inBounds_iff.2 (by omega)
  have htake : bytes.take (c.memSize - (fetchPC p).toNat) = bytes := List.take_of_length_le (by omega)
  rw [memByte, if_pos hin, haddr, get_memoryStage_of_no_overlap hapart hk, htake]
  exact Memory.get_setList_inside (hmem ▸ hwf) hfits hk

/-- Ten bytes placed are the bytes that the next cycle fetches. -/
theorem fetchBytes_placeForFetch {s : State} {bytes : List Byte} (hwf : s.mem.wf c.memSize)
    (hten : bytes.length = 10) (hroom : 10 ≤ c.memSize) (hsize : c.memSize ≤ 2 ^ 64) :
    fetchBytes c (memOut c (placeForFetch c s bytes)).mem (fetchPC (placeForFetch c s bytes)) = bytes := by
  have hlen : bytes.length ≤ c.memSize := hten.trans_le hroom
  have hfits := fetchPC_placeBase_le s hlen
  have hin : inBounds c (fetchPC (placeForFetch c s bytes)) = true := by
    rw [placeForFetch_eq_load, fetchPC_load]
    exact inBounds_iff.2 (by omega)
  rw [fetchBytes_inBounds hin]
  refine List.ext_getElem (by simp [hten]) fun k _ hk => ?_
  rw [List.getElem_map, List.getElem_range, memByte_placeForFetch hwf hsize hlen hk]

end Placing

theorem tableBytes_length (nbits w : Nat) : (tableBytes nbits w).length = 10 := rfl

theorem decode_of_decodeTableWord {nbits w : Nat} {i : Instr} (h : decodeTableWord nbits w = some i) :
    ∃ rest, decode Config.machine (tableBytes nbits w) = .ok (i, rest) := by
  unfold decodeTableWord at h
  split at h
  · next j rest hdecode =>
    cases h
    exact ⟨rest, hdecode⟩
  · cases h

/-- Settles O8: the ten bytes of the word are those at the fetch address, and the decoder reads the instruction in
them. -/
theorem placedInstructionIsRun : Obligations.PlacedInstructionIsRun := by
  unfold Obligations.PlacedInstructionIsRun
  intro s nbits w i hwf hword
  obtain ⟨rest, hdecode⟩ := decode_of_decodeTableWord hword
  have hbytes : bytesAtFetch (s.withFetchWord nbits w) = tableBytes nbits w :=
    fetchBytes_placeForFetch hwf (tableBytes_length nbits w) (by decide) (by decide)
  exact ⟨placeForFetch_stopped .., (stepRunsTheDecodedInstruction _).1 i rest ((congrArg _ hbytes).trans hdecode)⟩

end Sys2Proof.Machine
end
